-- ==== Sys2Proof/Word.lean ====
section
/-! DEFINITION. The value types of the CHIP-8 core: the widths the spec fixes (spec/00_scope.md R6, R8). -/

namespace Sys2Proof

/-- An 8-bit value: a byte of memory, a general register, a timer (R6). All values are unsigned (R9). -/
abbrev Byte := BitVec 8

/-- A 16-bit value: the program counter, the index register, a stack entry, an instruction word (R6). -/
abbrev Word := BitVec 16

/-- A 4-bit field: a register number X or Y, a row count N, a logical key (R8, R71). -/
abbrev Nibble := BitVec 4

/-- A 12-bit address immediate NNN (R71). -/
abbrev Addr := BitVec 12

/-- The pressed-key set: bit k is 1 when logical key k is pressed (R233). -/
abbrev Keys := BitVec 16

end Sys2Proof
end

