-- ==== Sys2Proof/Config.lean ====
section
/-! DEFINITION. What an implementation fixes (the parameters of spec/00_scope.md R7) and what the spec leaves
free (the per-cycle inputs of R233, the choice of R234). -/

namespace Sys2Proof

/-- `MEM_SIZE`: the number of bytes of memory (R6). -/
def memSize : Nat := 4096

/-- `FONT_BASE`: the address of the first font byte (R6). -/
def fontBase : Nat := 0x50

/-- The number of font bytes: 16 glyphs of 5 bytes (R6). -/
def fontSize : Nat := 80

/-- `LOAD_BASE`: the address a program image is loaded at, and the entry point (R6, R253). -/
def loadBase : Nat := 0x200

/-- `MAX_IMAGE`: the longest image a load accepts, in bytes (R6, R252). -/
def maxImage : Nat := 3584

/-- `DISPLAY_W`: the number of pixel columns (R6). -/
def displayW : Nat := 64

/-- `DISPLAY_H`: the number of pixel rows (R6). -/
def displayH : Nat := 32

/-- The 80 bytes `FONT` that reset puts at 0x50 to 0x9F (R7, R31). -/
abbrev Font := Vector Byte 80

/-- `ADDR_POLICY`: what an access above address 4095 does (R7, R54). -/
inductive AddrPolicy where
  /-- `MASK`: the address is taken modulo 4096. The spec's default. -/
  | mask
  /-- `FAULT`: the access raises Halt(OutOfBoundsAddress). -/
  | fault
deriving DecidableEq, Repr

/-- `TIMER_DECAY`: what decrementing a timer that is 0 gives (R7, R97). -/
inductive TimerDecay where
  /-- `SATURATE`: 0. The spec's default and normative value. -/
  | saturate
  /-- `WRAP`: 255, the literal behaviour of the source's code. -/
  | wrap
deriving DecidableEq, Repr

/-- `KEY_SELECT`: which key EX9E and EXA1 test (R7, R200). -/
inductive KeySelect where
  /-- `NIBBLE`: the key whose number is the field X. The spec's default. -/
  | nibble
  /-- `REGISTER`: the key whose number is the value of V[X]. -/
  | register
deriving DecidableEq, Repr

/-- A bound of the stack: a positive natural number (R7). -/
abbrev StackBound := { d : Nat // 0 < d }

/-- The parameters of R7 that are plain data. Every instruction and the step read them from the state, which
carries them unchanged, so a statement about every state is a statement about every choice of parameters
(log entry 1). -/
structure Params where
  /-- `ADDR_POLICY`. -/
  addrPolicy : AddrPolicy
  /-- `TIMER_DECAY`. -/
  timerDecay : TimerDecay
  /-- The bound of the stack, positive by its type; `none` is the unbounded stack (R7, R26). -/
  stackBound : Option StackBound
  /-- `KEY_SELECT`. -/
  keySelect : KeySelect
  /-- `FONT`. -/
  font : Font
deriving DecidableEq, Repr

/-- `STACK_DEPTH` as a number: never 0, and `none` for the unbounded stack (R7, R26). -/
def Params.stackDepth (p : Params) : Option Nat := p.stackBound.map Subtype.val

/-- The pressed keys of cycle number `n` where no input is listed for it. FREE VALUE: no body, so nothing can be
proved of it (R233, log entry 3). -/
opaque Config.freeKeys : Nat → Keys

/-- The random byte of cycle number `n` where no input is listed for it. FREE VALUE: no body (R162, R233, log
entry 3). -/
opaque Config.freeRand : Nat → Byte

/-- The key that is first among several pressed ones; consulted only for two or more pressed keys, and ignored
where it names a key that is not pressed. FREE VALUE: no body (`FIRST_KEY` of R7, R234, log entry 4). -/
opaque Config.firstKeyPick : Keys → Nibble

/-- `CYCLE_HZ`: the external cycle rate. OPEN: no body, and no rule depends on it (R7, R101, log entry 12). -/
opaque Config.cycleHz : Nat

end Sys2Proof
end

