-- ==== Sys2Proof/Machine/Defaults.lean ====
section
/-! DEFINITION. The parameter values the reset state carries: the defaults of spec/00_scope.md R7, and for FONT the
bytes spec/10_state.md R31 suggests. -/

namespace Sys2Proof.Machine

/-- The customary CHIP-8 font, glyphs 0 to F, 5 bytes each, which R31 suggests to a model that needs concrete bytes
and marks as general knowledge. PRESUMED (log entry 2): unsafe. -/
def customaryFont : Font :=
  #v[0xF0#8, 0x90#8, 0x90#8, 0x90#8, 0xF0#8, 0x20#8, 0x60#8, 0x20#8, 0x20#8, 0x70#8,
     0xF0#8, 0x10#8, 0xF0#8, 0x80#8, 0xF0#8, 0xF0#8, 0x10#8, 0xF0#8, 0x10#8, 0xF0#8,
     0x90#8, 0x90#8, 0xF0#8, 0x10#8, 0x10#8, 0xF0#8, 0x80#8, 0xF0#8, 0x10#8, 0xF0#8,
     0xF0#8, 0x80#8, 0xF0#8, 0x90#8, 0xF0#8, 0xF0#8, 0x10#8, 0x20#8, 0x40#8, 0x40#8] ++
  #v[0xF0#8, 0x90#8, 0xF0#8, 0x90#8, 0xF0#8, 0xF0#8, 0x90#8, 0xF0#8, 0x10#8, 0xF0#8,
     0xF0#8, 0x90#8, 0xF0#8, 0x90#8, 0x90#8, 0xE0#8, 0x90#8, 0xE0#8, 0x90#8, 0xE0#8,
     0xF0#8, 0x80#8, 0x80#8, 0x80#8, 0xF0#8, 0xE0#8, 0x90#8, 0x90#8, 0x90#8, 0xE0#8,
     0xF0#8, 0x80#8, 0xF0#8, 0x80#8, 0xF0#8, 0xF0#8, 0x80#8, 0xF0#8, 0x80#8, 0x80#8]

/-- The defaults of R7, with the customary font. DESIGN CHOICE (log entry 1). -/
def defaultParams : Params :=
  { addrPolicy := .mask, timerDecay := .saturate, stackBound := some ⟨16, by decide⟩, keySelect := .nibble
    font := customaryFont }

end Sys2Proof.Machine
end

