-- ==== Sys2Proof/Machine/State.lean ====
section
/-! DEFINITION. The architectural state (spec/10_state.md R20) as plain data, the reasons a step can stop, and the
state after reset (R33). -/

namespace Sys2Proof.Machine

/-- The kinds of the one trap, `raise Halt(kind)` (R30, R221). -/
inductive HaltKind where
  /-- 00EE with an empty stack (R223). -/
  | stackUnderflow
  /-- 2NNN with a full stack (R224). -/
  | stackOverflow
  /-- An access above address 4095 under `ADDR_POLICY = FAULT` (R225). -/
  | outOfBoundsAddress
deriving DecidableEq, Repr

/-- The fault record of R30 and R222. -/
structure FaultRecord where
  /-- The kind of the halt. -/
  kind : HaltKind
  /-- The fetch address of the faulting instruction. -/
  pc : Word
  /-- The faulting instruction word, or none when the fetch itself raised. -/
  word : Option Word
deriving DecidableEq, Repr

/-- The inputs of one cycle (R233). -/
structure CycleInput where
  /-- Bit k is 1 when logical key k is pressed. -/
  keys : Keys
  /-- The random byte, read only by CXNN. -/
  rand : Byte
deriving DecidableEq, Repr

/-- The bytes of memory that differ from the reset contents: addresses strictly rising (Machine/Memory.lean). -/
abbrev Memory := List Host.Cell

/-- The state of the core. The first ten fields are the record of R20; the last four are the model's own (log
entries 1, 3, 5): they carry what the spec makes an argument or an input of the cycle. -/
structure State where
  /-- V0 to VF; VF is the flag register (R21, R22). -/
  V : Vector Byte 16
  /-- The index register (R24). -/
  I : Word
  /-- The program counter (R23). -/
  pc : Word
  /-- The return addresses, the top of the stack first (R26). -/
  stack : List Word
  /-- The delay timer (R25). -/
  DT : Byte
  /-- The sound timer (R25). -/
  ST : Byte
  /-- Memory (R29). -/
  mem : Memory
  /-- The framebuffer, row-major: bit 64*y + x is the pixel in column x of row y (R28). -/
  fb : BitVec 2048
  /-- The core has halted (R30). -/
  halted : Bool
  /-- The halt record (R30). -/
  fault : Option FaultRecord
  /-- The parameters of R7; no step changes them. -/
  params : Params
  /-- A load has succeeded, so cycles may run (R251, R252). -/
  loaded : Bool
  /-- The inputs of the coming cycles, the next cycle's first (R233). -/
  inputs : List CycleInput
  /-- How many cycles have used their inputs; it selects the free inputs of a cycle for which none is listed. -/
  inputNo : Nat
deriving DecidableEq, Repr

/-- Faults that end a step. There is none: the core's one trap is the halt of R222, which is a next state with
`halted` set, and no other fault is described (R220, R227). Safe: no run ends in a fault. -/
inductive Fault where
deriving DecidableEq, Repr

/-- Why a step has no meaning. -/
inductive Refusal where
  /-- Raised by an arm of `exec` for an instruction without a meaning. No arm raises it. Safe. -/
  | notModelled (mnemonic : String)
  /-- Raised by `step` before a successful load: no cycle is defined there (R251, R252, U20). Safe (log entry 5). -/
  | cycleBeforeLoad
deriving DecidableEq, Repr

/-- The state after reset, for given parameters (R33, R251): memory holds its reset contents, so nothing is listed,
and the core waits for a load. -/
def State.resetWith (p : Params) : State :=
  { V := Vector.replicate 16 0#8, I := 0#16, pc := 0#16, stack := [], DT := 0#8, ST := 0#8, mem := [], fb := 0#2048,
    halted := false, fault := none, params := p, loaded := false, inputs := [], inputNo := 0 }

/-- The state after reset (R33), with the parameters of log entries 1 and 2. -/
def State.reset : State := State.resetWith defaultParams

end Sys2Proof.Machine
end

