-- ==== Sys2Proof/Machine/Memory.lean ====
section
/-! DEFINITION. Memory as a list of (address, byte) pairs in one canonical form: addresses strictly rising and below
4096, and no entry equal to what an unlisted address reads as, which is the reset contents (spec/10_state.md R29,
R33; spec/20_memory.md R50, R58). -/

namespace Sys2Proof.Machine

/-- What an unlisted address reads as: the byte that reset puts there, the font at 0x50 to 0x9F and 0 everywhere
else (R33, R58, R251). -/
def resetByte (font : Font) (a : Nat) : Byte :=
  if fontBase ≤ a then font[a - fontBase]?.getD 0#8 else 0#8

/-- The byte at an address. -/
def Memory.read (font : Font) : Memory → Nat → Byte
  | [], a => resetByte font a
  | (b, v) :: rest, a => if b = a then v else Memory.read font rest a

/-- Take every entry of the address out of the list. -/
def Memory.erase : Memory → Nat → Memory
  | [], _ => []
  | (b, v) :: rest, a => if b = a then Memory.erase rest a else (b, v) :: Memory.erase rest a

/-- Put an entry in before the first larger address. -/
def Memory.insert : Memory → Nat → Byte → Memory
  | [], a, v => [(a, v)]
  | (b, w) :: rest, a, v => if a < b then (a, v) :: (b, w) :: rest else (b, w) :: Memory.insert rest a v

/-- Write one byte and keep the canonical form: a byte equal to the reset contents is not listed. -/
def Memory.write (font : Font) (m : Memory) (a : Nat) (v : Byte) : Memory :=
  if v = resetByte font a then Memory.erase m a else Memory.insert (Memory.erase m a) a v

/-- The addresses rise strictly. -/
def Memory.rising : Memory → Bool
  | [] => true
  | [_] => true
  | (a, _) :: (b, w) :: rest => decide (a < b) && Memory.rising ((b, w) :: rest)

/-- The canonical form. -/
def Memory.wf (font : Font) (m : Memory) : Bool :=
  m.rising && m.all fun c => decide (c.1 < memSize) && c.2 != resetByte font c.1

end Sys2Proof.Machine
end

