-- ==== Sys2Proof/Machine/Ops.lean ====
section
/-! DEFINITION. The named operations over registers, memory, the stack and the framebuffer, the phases of the cycle
around an instruction (spec/40_cycle.md R90), and the halt, the one trap (spec/60_exceptions.md R222). -/

namespace Sys2Proof.Machine

/-! ## Registers (R10, R21 to R25) -/

/-- `V[x]` (R10). -/
def State.readV (s : State) (x : Nibble) : Byte := s.V[x.toNat]'x.isLt

/-- `V[x] <- b` (R10). -/
def State.writeV (s : State) (x : Nibble) (b : Byte) : State := { s with V := s.V.set x.toNat b x.isLt }

/-- `V[0xF] <- f`: the flag register (R22). -/
def State.writeVF (s : State) (f : Byte) : State := s.writeV 0xF#4 f

/-- `I <- a`. -/
def State.setI (s : State) (a : Word) : State := { s with I := a }

/-- `pc <- target`; nothing is masked or checked (R93, R139). -/
def State.setPc (s : State) (a : Word) : State := { s with pc := a }

/-- `DT <- b`. -/
def State.setDT (s : State) (b : Byte) : State := { s with DT := b }

/-- `ST <- b`. -/
def State.setST (s : State) (b : Byte) : State := { s with ST := b }

/-- The stack becomes the given sequence. -/
def State.setStack (s : State) (l : List Word) : State := { s with stack := l }

/-- The framebuffer becomes the given pixels. -/
def State.setFb (s : State) (d : BitVec 2048) : State := { s with fb := d }

/-! ## Memory (R50 to R56) -/

/-- The byte at an address of memory, with no resolution. -/
def State.peek (s : State) (a : Nat) : Byte := Memory.read s.params.font s.mem a

/-- Memory with one byte written, with no resolution. -/
def State.poke (s : State) (a : Nat) (v : Byte) : State := { s with mem := Memory.write s.params.font s.mem a v }

/-- `Resolve(a)` of R54: the index an address names, or the kind of the halt it raises. -/
def resolve (p : Params) (a : Nat) : Except HaltKind Nat :=
  if a ≤ 4095 then .ok a
  else match p.addrPolicy with
    | .mask => .ok (a % memSize)
    | .fault => .error .outOfBoundsAddress

/-- `MemRead(a, 1)` (R52). -/
def State.memRead (s : State) (a : Nat) : Except HaltKind Byte :=
  match resolve s.params a with
  | .ok r => .ok (s.peek r)
  | .error k => .error k

/-- `MemWrite(a, 1, v)` (R53). -/
def State.memWrite (s : State) (a : Nat) (v : Byte) : Except HaltKind State :=
  match resolve s.params a with
  | .ok r => .ok (s.poke r v)
  | .error k => .error k

/-- Write bytes at consecutive increasing addresses, one `MemWrite` each (R56). -/
def State.storeBytes (s : State) (a : Nat) : List Byte → Except HaltKind State
  | [] => .ok s
  | v :: rest =>
    match s.memWrite a v with
    | .ok t => t.storeBytes (a + 1) rest
    | .error k => .error k

/-- The first `n` registers, V0 first. -/
def State.firstRegs (s : State) (n : Nat) : List Byte := (List.range n).map fun k => s.readV (BitVec.ofNat 4 k)

/-- `V[k] <- MemRead(a + k, 1)` for the first `n` registers, in increasing order (R56, R185). -/
def State.loadFirstRegs (s : State) (a : Nat) : Nat → Except HaltKind State
  | 0 => .ok s
  | k + 1 =>
    match s.loadFirstRegs a k with
    | .ok t =>
      match t.memRead (a + k) with
      | .ok v => .ok (t.writeV (BitVec.ofNat 4 k) v)
      | .error e => .error e
    | .error e => .error e

/-! ## The stack (R26) -/

/-- `Push(v)`; a push onto a stack of `STACK_DEPTH` entries raises StackOverflow (R26, R132, R224). -/
def State.push (s : State) (v : Word) : Except HaltKind State :=
  if s.params.stackDepth = some s.stack.length then .error .stackOverflow else .ok (s.setStack (v :: s.stack))

/-- `Pop()` and the value popped; a pop from an empty stack raises StackUnderflow (R26, R130, R223). -/
def State.pop (s : State) : Except HaltKind (Word × State) :=
  match s.stack with
  | [] => .error .stackUnderflow
  | v :: rest => .ok (v, s.setStack rest)

/-! ## Taking the halt (R99, R222) -/

/-- The cause codes of R221. -/
def HaltKind.code : HaltKind → Nat
  | .stackUnderflow => 1
  | .stackOverflow => 2
  | .outOfBoundsAddress => 3

/-- `raise Halt(kind)` seen from the state `s` before the cycle: every effect of the cycle is discarded, and the
record holds the kind, the fetch address and the word, or none when the fetch raised (R99, R222). Only reset leaves
the halt (R230), so there is no return from it. -/
def State.takeHalt (s : State) (k : HaltKind) (w : Option Word) : State :=
  { s with halted := true, fault := some { kind := k, pc := s.pc, word := w } }

/-! ## The phases of a cycle (R90) -/

/-- The value of `pc` after the automatic advance and its wrap to 0 (R92, R93). -/
def advancedPc (a0 : Word) : Word := if 4095 < (a0 + 2#16).toNat then 0#16 else a0 + 2#16

/-- The advance, before the instruction executes (R92, R93). -/
def State.advance (s : State) : State := s.setPc (advancedPc s.pc)

/-- `Dec(t)` (R97). -/
def decayed (d : TimerDecay) (t : Byte) : Byte :=
  match d with
  | .saturate => if t = 0#8 then 0#8 else t - 1#8
  | .wrap => t - 1#8

/-- The end of a cycle: both timers decay once (R96), and the inputs of the next cycle come up (R233, log
entry 3). -/
def State.endCycle (s : State) : State :=
  { s with
    DT := decayed s.params.timerDecay s.DT
    ST := decayed s.params.timerDecay s.ST
    inputs := s.inputs.tail
    inputNo := s.inputNo + 1 }

/-- The cycle of an instruction that cannot halt: advance, its effect, the end of the cycle (R90). -/
def runCycle (s : State) (effect : State → State) : Host.Outcome State Fault Refusal :=
  .next (effect s.advance).endCycle

/-- The cycle of an instruction that may halt: where its effect raises a halt, the whole cycle is discarded and the
halt is taken (R90, R99). -/
def runCycleOrHalt (w : Word) (s : State) (effect : State → Except HaltKind State) :
    Host.Outcome State Fault Refusal :=
  match effect s.advance with
  | .ok t => .next t.endCycle
  | .error k => .next (s.takeHalt k (some w))

/-! ## Load (R252) -/

/-- Why a load fails. -/
inductive LoadError where
  /-- The image is longer than 3584 bytes: nothing is written (R226, R252). -/
  | programTooLarge
deriving DecidableEq, Repr

/-- Write bytes at consecutive addresses with no resolution. -/
def State.pokeBytes (s : State) (a : Nat) : List Byte → State
  | [] => s
  | v :: rest => (s.poke a v).pokeBytes (a + 1) rest

/-- `Load(image)` of R252. The host calls it once, after reset and before the first cycle. -/
def State.load (s : State) (image : List Byte) : Except LoadError State :=
  if maxImage < image.length then .error .programTooLarge
  else .ok { s.pokeBytes loadBase image with pc := 0x200#16, loaded := true }

end Sys2Proof.Machine
end

