-- ==== Sys2Proof/Machine/Flags.lean ====
section
/-! DEFINITION. The 8-bit arithmetic of spec/43_alu.md R150 with the flag each operation gives, and the flag byte. -/

namespace Sys2Proof.Machine

/-- A flag as the byte VF receives: 1 or 0 (R22). -/
def flagByte (b : Bool) : Byte := if b then 1#8 else 0#8

/-- The widened sum `zext_9(a) + zext_9(b)` of R157. -/
def wideSum (a b : Byte) : BitVec 9 := a.setWidth 9 + b.setWidth 9

/-- `sum[7:0]` (R157). -/
def addResult (a b : Byte) : Byte := (wideSum a b).extractLsb' 0 8

/-- The carry out of bit 7: `sum > 255` (R150, R157). -/
def addCarry (a b : Byte) : Bool := decide (255 < (wideSum a b).toNat)

/-- `(a - b) mod 256` (R150, R158). -/
def subResult (a b : Byte) : Byte := a - b

/-- No borrow: `a >= b` (R150, R158). -/
def noBorrow (a b : Byte) : Bool := decide (b.toNat ≤ a.toNat)

/-- `a >> 1`, logical (R159). -/
def shrResult (a : Byte) : Byte := a >>> 1

/-- `a[0]`, the bit a right shift shifts out (R159). -/
def shrOut (a : Byte) : Bool := a.getLsbD 0

/-- `(a << 1) mod 256` (R161). -/
def shlResult (a : Byte) : Byte := a <<< 1

/-- `a[7]`, the bit a left shift shifts out (R161). -/
def shlOut (a : Byte) : Bool := a.getLsbD 7

/-- The writes of a flag-writing instruction: V[x] first and VF last, so that VF ends holding the flag when X = F
(R22, R163). -/
def State.writeWithFlag (s : State) (x : Nibble) (b : Byte) (flag : Bool) : State :=
  (s.writeV x b).writeVF (flagByte flag)

end Sys2Proof.Machine
end

