-- ==== Sys2Proof/Machine/Operands.lean ====
section
/-! DEFINITION. The operands of instructions beyond plain registers: the inputs of the cycle, key selection
(spec/45_keys_timers.md R200), the first pressed key (spec/60_exceptions.md R234), glyph addresses, decimal digits,
and the skip. -/

namespace Sys2Proof.Machine

/-- The inputs of the cycle that starts in this state: the listed ones, or the free ones where none is listed
(R233, log entry 3). -/
def State.input (s : State) : CycleInput :=
  match s.inputs with
  | c :: _ => c
  | [] => { keys := Config.freeKeys s.inputNo, rand := Config.freeRand s.inputNo }

/-- `KeyId(x)` of R200. -/
def State.keyId (s : State) (x : Nibble) : Nat :=
  match s.params.keySelect with
  | .nibble => x.toNat
  | .register => (s.readV x).toNat

/-- `Pressed(k)` of R200: ids above 15 are never pressed. -/
def pressed (keys : Keys) (k : Nat) : Bool := decide (k ≤ 15) && keys.getLsbD k

/-- The pressed keys in increasing order. -/
def pressedKeys (keys : Keys) : List Nibble :=
  ((List.range 16).filter fun k => keys.getLsbD k).map (BitVec.ofNat 4)

/-- `FIRST_KEY` for a given choice among several pressed keys (R234): none when no key is pressed, the one pressed
key when there is one, and among several the chosen one where it is pressed. -/
def firstKeyBy (pick : Keys → Nibble) (keys : Keys) : Option Nibble :=
  match pressedKeys keys with
  | [] => none
  | [k] => some k
  | k :: _ :: _ => if keys.getLsbD (pick keys).toNat then some (pick keys) else some k

/-- `FIRST_KEY` (R234): the choice among several pressed keys is a free value (log entry 4). -/
def firstKey (keys : Keys) : Option Nibble := firstKeyBy Config.firstKeyPick keys

/-- `pc <- (pc + 2) mod 2^16` where the condition holds (R138). -/
def State.skipIf (s : State) (c : Bool) : State := if c then s.setPc (s.pc + 2#16) else s

/-- `0x50 + 5 * g` (R182), unmasked; at most 0x54B. -/
def glyphAddress (g : Byte) : Word := BitVec.ofNat 16 (fontBase + 5 * g.toNat)

/-- The hundreds, tens and ones of a byte (R183). -/
def decimalDigits (v : Byte) : List Byte :=
  [BitVec.ofNat 8 (v.toNat / 100), BitVec.ofNat 8 (v.toNat / 10 % 10), BitVec.ofNat 8 (v.toNat % 10)]

end Sys2Proof.Machine
end

