-- ==== Sys2Proof/Machine/Alu.lean ====
section
/-! DEFINITION. The loads, the 8-bit ALU and the random byte (spec/43_alu.md R150 to R163). -/

namespace Sys2Proof.Machine

/-- An instruction whose only effect is to write a value of the state to V[x]; VF is written only where X = F
(R163). -/
def writeResult (x : Nibble) (value : State → Byte) (s : State) : Host.Outcome State Fault Refusal :=
  runCycle s fun t => t.writeV x (value t)

/-- An instruction that writes a result of V[x] and V[y] to V[x] and its flag to VF, last (R163). -/
def writeFlagged (x y : Nibble) (result : Byte → Byte → Byte) (flag : Byte → Byte → Bool) (s : State) :
    Host.Outcome State Fault Refusal :=
  runCycle s fun t =>
    t.writeWithFlag x (result (t.readV x) (t.readV y)) (flag (t.readV x) (t.readV y))

/-- 6XNN `LD Vx, NN` (R151). -/
def execLdImm (x : Nibble) (nn : Byte) (s : State) : Host.Outcome State Fault Refusal :=
  writeResult x (fun _ => nn) s

/-- 7XNN `ADD Vx, NN` (R152): no flag. -/
def execAddImm (x : Nibble) (nn : Byte) (s : State) : Host.Outcome State Fault Refusal :=
  writeResult x (fun t => t.readV x + nn) s

/-- 8XY0 `LD Vx, Vy` (R153). -/
def execLdReg (x y : Nibble) (s : State) : Host.Outcome State Fault Refusal :=
  writeResult x (fun t => t.readV y) s

/-- 8XY1 `OR Vx, Vy` (R154). -/
def execOrReg (x y : Nibble) (s : State) : Host.Outcome State Fault Refusal :=
  writeResult x (fun t => t.readV x ||| t.readV y) s

/-- 8XY2 `AND Vx, Vy` (R155). -/
def execAndReg (x y : Nibble) (s : State) : Host.Outcome State Fault Refusal :=
  writeResult x (fun t => t.readV x &&& t.readV y) s

/-- 8XY3 `XOR Vx, Vy` (R156). -/
def execXorReg (x y : Nibble) (s : State) : Host.Outcome State Fault Refusal :=
  writeResult x (fun t => t.readV x ^^^ t.readV y) s

/-- 8XY4 `ADD Vx, Vy` (R157): VF is the carry. -/
def execAddReg (x y : Nibble) (s : State) : Host.Outcome State Fault Refusal :=
  writeFlagged x y addResult addCarry s

/-- 8XY5 `SUB Vx, Vy` (R158): VF is no borrow. -/
def execSubReg (x y : Nibble) (s : State) : Host.Outcome State Fault Refusal :=
  writeFlagged x y subResult noBorrow s

/-- 8XY6 `SHR Vx` (R159): the source is V[x], Y is ignored (R77). -/
def execShr (x : Nibble) (s : State) : Host.Outcome State Fault Refusal :=
  writeFlagged x x (fun a _ => shrResult a) (fun a _ => shrOut a) s

/-- 8XY7 `SUBN Vx, Vy` (R160): VF is no borrow. -/
def execSubnReg (x y : Nibble) (s : State) : Host.Outcome State Fault Refusal :=
  writeFlagged x y (fun a b => subResult b a) (fun a b => noBorrow b a) s

/-- 8XYE `SHL Vx` (R161): the source is V[x], Y is ignored (R77). -/
def execShl (x : Nibble) (s : State) : Host.Outcome State Fault Refusal :=
  writeFlagged x x (fun a _ => shlResult a) (fun a _ => shlOut a) s

/-- CXNN `RND Vx, NN` (R162): `rand AND NN`, with the random byte of this cycle. -/
def execRnd (x : Nibble) (nn : Byte) (s : State) : Host.Outcome State Fault Refusal :=
  writeResult x (fun t => t.input.rand &&& nn) s

end Sys2Proof.Machine
end

