-- ==== Sys2Proof/Syntax.lean ====
section
/-! DEFINITION. The instructions: one constructor per row of spec/opcode_table.json (spec/30_encoding.md R80), in
the table's order. Operands have the widths of R71, so no operand is out of range. -/

namespace Sys2Proof

/-- The 34 instructions of R80. `x`, `y`, `n`, `nn`, `nnn` are the fields X, Y, N, NN, NNN of R71. -/
inductive Instr where
  /-- 00E0 `CLS`: clear the framebuffer (R110). -/
  | cls
  /-- 00EE `RET`: return from subroutine (R130). -/
  | ret
  /-- 1NNN `JP NNN`: jump (R131). -/
  | jp (nnn : Addr)
  /-- 2NNN `CALL NNN`: call subroutine (R132). -/
  | call (nnn : Addr)
  /-- 3XNN `SE Vx, NN`: skip if equal to an immediate (R133). -/
  | seImm (x : Nibble) (nn : Byte)
  /-- 4XNN `SNE Vx, NN`: skip if not equal to an immediate (R134). -/
  | sneImm (x : Nibble) (nn : Byte)
  /-- 5XY0 `SE Vx, Vy`: skip if registers are equal (R135). -/
  | seReg (x y : Nibble)
  /-- 6XNN `LD Vx, NN`: load an immediate (R151). -/
  | ldImm (x : Nibble) (nn : Byte)
  /-- 7XNN `ADD Vx, NN`: add an immediate with no flag (R152). -/
  | addImm (x : Nibble) (nn : Byte)
  /-- 8XY0 `LD Vx, Vy`: copy a register (R153). -/
  | ldReg (x y : Nibble)
  /-- 8XY1 `OR Vx, Vy` (R154). -/
  | orReg (x y : Nibble)
  /-- 8XY2 `AND Vx, Vy` (R155). -/
  | andReg (x y : Nibble)
  /-- 8XY3 `XOR Vx, Vy` (R156). -/
  | xorReg (x y : Nibble)
  /-- 8XY4 `ADD Vx, Vy`: add with carry out (R157). -/
  | addReg (x y : Nibble)
  /-- 8XY5 `SUB Vx, Vy`: V[x] minus V[y] (R158). -/
  | subReg (x y : Nibble)
  /-- 8XY6 `SHR Vx`: shift right by 1; the field Y is part of the word and is ignored (R77, R159). -/
  | shr (x y : Nibble)
  /-- 8XY7 `SUBN Vx, Vy`: V[y] minus V[x] (R160). -/
  | subnReg (x y : Nibble)
  /-- 8XYE `SHL Vx`: shift left by 1; the field Y is part of the word and is ignored (R77, R161). -/
  | shl (x y : Nibble)
  /-- 9XY0 `SNE Vx, Vy`: skip if registers differ (R136). -/
  | sneReg (x y : Nibble)
  /-- ANNN `LD I, NNN`: set the index register (R180). -/
  | ldI (nnn : Addr)
  /-- BNNN `JP V0, NNN`: jump to NNN plus V0 (R137). -/
  | jpV0 (nnn : Addr)
  /-- CXNN `RND Vx, NN`: random byte AND an immediate (R162). -/
  | rnd (x : Nibble) (nn : Byte)
  /-- DXYN `DRW Vx, Vy, N`: draw an N-row sprite (R111). -/
  | drw (x y n : Nibble)
  /-- EX9E `SKP x`: skip if the key is pressed (R201). -/
  | skp (x : Nibble)
  /-- EXA1 `SKNP x`: skip if the key is not pressed (R202). -/
  | sknp (x : Nibble)
  /-- FX07 `LD Vx, DT`: read the delay timer (R203). -/
  | ldVxDT (x : Nibble)
  /-- FX0A `LD Vx, K`: wait for a key (R204). -/
  | ldVxK (x : Nibble)
  /-- FX15 `LD DT, Vx`: set the delay timer (R205). -/
  | ldDTVx (x : Nibble)
  /-- FX18 `LD ST, Vx`: set the sound timer (R206). -/
  | ldSTVx (x : Nibble)
  /-- FX1E `ADD I, Vx`: advance the index register (R181). -/
  | addI (x : Nibble)
  /-- FX29 `LD F, Vx`: point I at a font glyph (R182). -/
  | ldF (x : Nibble)
  /-- FX33 `LD B, Vx`: store the decimal digits of V[x] (R183). -/
  | ldB (x : Nibble)
  /-- FX55 `LD [I], Vx`: store V0..VX (R184). -/
  | storeRegs (x : Nibble)
  /-- FX65 `LD Vx, [I]`: load V0..VX (R185). -/
  | loadRegs (x : Nibble)
deriving DecidableEq, Repr

end Sys2Proof
end

