-- ==== Sys2Proof/WellFormed.lean ====
section
/-! DEFINITION. Well-formed instructions: every operand lies in the range its field of spec/30_encoding.md R71 can
hold. The operand types of Syntax.lean carry these bounds, so every `Instr` passes (Laws/Encoding.lean says so);
the checks on plain numbers are what refuses an operand before it becomes an `Instr`. -/

namespace Sys2Proof

/-- The number fits a 4-bit field X, Y or N (R71). -/
def fitsNibble (n : Nat) : Bool := decide (n < 16)

/-- The number fits the 8-bit field NN (R71). -/
def fitsByte (n : Nat) : Bool := decide (n < 256)

/-- The number fits the 12-bit field NNN (R71). -/
def fitsAddr (n : Nat) : Bool := decide (n < 4096)

/-- Every operand of the instruction fits its field (R71, R72). -/
def Instr.wellFormed : Instr → Bool
  | .cls | .ret => true
  | .jp nnn | .call nnn | .ldI nnn | .jpV0 nnn => fitsAddr nnn.toNat
  | .seImm x nn | .sneImm x nn | .ldImm x nn | .addImm x nn | .rnd x nn => fitsNibble x.toNat && fitsByte nn.toNat
  | .seReg x y | .ldReg x y | .orReg x y | .andReg x y | .xorReg x y | .addReg x y | .subReg x y | .shr x y
  | .subnReg x y | .shl x y | .sneReg x y => fitsNibble x.toNat && fitsNibble y.toNat
  | .drw x y n => fitsNibble x.toNat && fitsNibble y.toNat && fitsNibble n.toNat
  | .skp x | .sknp x | .ldVxDT x | .ldVxK x | .ldDTVx x | .ldSTVx x | .addI x | .ldF x | .ldB x | .storeRegs x
  | .loadRegs x => fitsNibble x.toNat

end Sys2Proof
end

