-- ==== Sys2Proof/Decode.lean ====
section
/-! DEFINITION. Decoding and encoding (spec/30_encoding.md): the fields of a word, the decode function of R75, the
opcode map of R80 as data, and the encoder of R81. -/

namespace Sys2Proof

/-! The fields of an instruction word (R8, R71). -/

/-- `op` = w[15:12]. -/
def fieldOp (w : Word) : Nibble := w.extractLsb' 12 4
/-- `X` = w[11:8]. -/
def fieldX (w : Word) : Nibble := w.extractLsb' 8 4
/-- `Y` = w[7:4]. -/
def fieldY (w : Word) : Nibble := w.extractLsb' 4 4
/-- `N` = w[3:0]. -/
def fieldN (w : Word) : Nibble := w.extractLsb' 0 4
/-- `NN` = w[7:0]. -/
def fieldNN (w : Word) : Byte := w.extractLsb' 0 8
/-- `NNN` = w[11:0]. -/
def fieldNNN (w : Word) : Addr := w.extractLsb' 0 12

/-! The four mask domains of R73, in the order R75 tries them. -/

/-- Domain 1, the full word: 00E0 and 00EE (R73, R75). -/
def decodeFullWord (w : Word) : Option Instr :=
  if w = 0x00E0#16 then some .cls
  else if w = 0x00EE#16 then some .ret
  else none

/-- Domain 2, the top nibble (R73, R75). -/
def decodeTopNibble (w : Word) : Option Instr :=
  if fieldOp w = 0x1#4 then some (.jp (fieldNNN w))
  else if fieldOp w = 0x2#4 then some (.call (fieldNNN w))
  else if fieldOp w = 0x3#4 then some (.seImm (fieldX w) (fieldNN w))
  else if fieldOp w = 0x4#4 then some (.sneImm (fieldX w) (fieldNN w))
  else if fieldOp w = 0x6#4 then some (.ldImm (fieldX w) (fieldNN w))
  else if fieldOp w = 0x7#4 then some (.addImm (fieldX w) (fieldNN w))
  else if fieldOp w = 0xA#4 then some (.ldI (fieldNNN w))
  else if fieldOp w = 0xB#4 then some (.jpV0 (fieldNNN w))
  else if fieldOp w = 0xC#4 then some (.rnd (fieldX w) (fieldNN w))
  else if fieldOp w = 0xD#4 then some (.drw (fieldX w) (fieldY w) (fieldN w))
  else none

/-- Domain 3, `w & 0xF00F` (R73, R75). -/
def decodeMaskF00F (w : Word) : Option Instr :=
  if w &&& 0xF00F#16 = 0x5000#16 then some (.seReg (fieldX w) (fieldY w))
  else if w &&& 0xF00F#16 = 0x8000#16 then some (.ldReg (fieldX w) (fieldY w))
  else if w &&& 0xF00F#16 = 0x8001#16 then some (.orReg (fieldX w) (fieldY w))
  else if w &&& 0xF00F#16 = 0x8002#16 then some (.andReg (fieldX w) (fieldY w))
  else if w &&& 0xF00F#16 = 0x8003#16 then some (.xorReg (fieldX w) (fieldY w))
  else if w &&& 0xF00F#16 = 0x8004#16 then some (.addReg (fieldX w) (fieldY w))
  else if w &&& 0xF00F#16 = 0x8005#16 then some (.subReg (fieldX w) (fieldY w))
  else if w &&& 0xF00F#16 = 0x8006#16 then some (.shr (fieldX w) (fieldY w))
  else if w &&& 0xF00F#16 = 0x8007#16 then some (.subnReg (fieldX w) (fieldY w))
  else if w &&& 0xF00F#16 = 0x800E#16 then some (.shl (fieldX w) (fieldY w))
  else if w &&& 0xF00F#16 = 0x9000#16 then some (.sneReg (fieldX w) (fieldY w))
  else none

/-- Domain 4, `w & 0xF0FF` (R73, R75). -/
def decodeMaskF0FF (w : Word) : Option Instr :=
  if w &&& 0xF0FF#16 = 0xE09E#16 then some (.skp (fieldX w))
  else if w &&& 0xF0FF#16 = 0xE0A1#16 then some (.sknp (fieldX w))
  else if w &&& 0xF0FF#16 = 0xF007#16 then some (.ldVxDT (fieldX w))
  else if w &&& 0xF0FF#16 = 0xF00A#16 then some (.ldVxK (fieldX w))
  else if w &&& 0xF0FF#16 = 0xF015#16 then some (.ldDTVx (fieldX w))
  else if w &&& 0xF0FF#16 = 0xF018#16 then some (.ldSTVx (fieldX w))
  else if w &&& 0xF0FF#16 = 0xF01E#16 then some (.addI (fieldX w))
  else if w &&& 0xF0FF#16 = 0xF029#16 then some (.ldF (fieldX w))
  else if w &&& 0xF0FF#16 = 0xF033#16 then some (.ldB (fieldX w))
  else if w &&& 0xF0FF#16 = 0xF055#16 then some (.storeRegs (fieldX w))
  else if w &&& 0xF0FF#16 = 0xF065#16 then some (.loadRegs (fieldX w))
  else none

/-- `Decode(w)` of R75; `none` is `Unknown`, the word that matches no pattern (R76). -/
def decodeWord (w : Word) : Option Instr :=
  (decodeFullWord w).orElse fun _ =>
    (decodeTopNibble w).orElse fun _ =>
      (decodeMaskF00F w).orElse fun _ => decodeMaskF0FF w

/-- Why bytes give no instruction. -/
inductive DecodeError where
  /-- Fewer than the 2 bytes every instruction has (R70). -/
  | truncated
  /-- The word matches no pattern. The machine runs it as a no-op (R76, R100); it is no fault. -/
  | unknown (w : Word)
deriving DecidableEq, Repr

/-- The big-endian word of two bytes: the first byte is the high byte (R55). -/
def wordOfBytes (hi lo : Byte) : Word := hi ++ lo

/-- The first byte, in memory order, of a word (R55). -/
def highByte (w : Word) : Byte := w.extractLsb' 8 8

/-- The second byte, in memory order, of a word (R55). -/
def lowByte (w : Word) : Byte := w.extractLsb' 0 8

/-- Decode the first instruction of a byte sequence and give the rest; it always takes exactly 2 bytes (R70). -/
def decode : List Byte → Except DecodeError (Instr × List Byte)
  | hi :: lo :: rest =>
    match decodeWord (wordOfBytes hi lo) with
    | some i => .ok (i, rest)
    | none => .error (.unknown (wordOfBytes hi lo))
  | _ => .error .truncated

/-- The instruction the decoder reads from the `nbits` low bits of `w`, laid out in memory as the hardware stores
a word: big-endian (R55). -/
def decodeTableWord (nbits w : Nat) : Option Instr :=
  match decode [highByte (BitVec.ofNat 16 (w % 2 ^ nbits)), lowByte (BitVec.ofNat 16 (w % 2 ^ nbits))] with
  | .ok (i, _) => some i
  | .error _ => none

/-! The opcode map (R80) and the encoder (R81). -/

/-- One row of the opcode map: a word `w` selects the row when `w & mask` is `pattern` (R80; the map's column
Match). -/
structure Row where
  /-- The column Match of R80. -/
  pattern : Word
  /-- The column Mask of R80. -/
  mask : Word
deriving DecidableEq, Repr

/-- The opcode map of R80, in the order of its rows. -/
def opcodeMap : List Row :=
  [⟨0x00E0#16, 0xFFFF#16⟩, ⟨0x00EE#16, 0xFFFF#16⟩, ⟨0x1000#16, 0xF000#16⟩, ⟨0x2000#16, 0xF000#16⟩,
   ⟨0x3000#16, 0xF000#16⟩, ⟨0x4000#16, 0xF000#16⟩, ⟨0x5000#16, 0xF00F#16⟩, ⟨0x6000#16, 0xF000#16⟩,
   ⟨0x7000#16, 0xF000#16⟩] ++
  [⟨0x8000#16, 0xF00F#16⟩, ⟨0x8001#16, 0xF00F#16⟩, ⟨0x8002#16, 0xF00F#16⟩, ⟨0x8003#16, 0xF00F#16⟩,
   ⟨0x8004#16, 0xF00F#16⟩, ⟨0x8005#16, 0xF00F#16⟩, ⟨0x8006#16, 0xF00F#16⟩, ⟨0x8007#16, 0xF00F#16⟩,
   ⟨0x800E#16, 0xF00F#16⟩, ⟨0x9000#16, 0xF00F#16⟩] ++
  [⟨0xA000#16, 0xF000#16⟩, ⟨0xB000#16, 0xF000#16⟩, ⟨0xC000#16, 0xF000#16⟩, ⟨0xD000#16, 0xF000#16⟩,
   ⟨0xE09E#16, 0xF0FF#16⟩, ⟨0xE0A1#16, 0xF0FF#16⟩] ++
  [⟨0xF007#16, 0xF0FF#16⟩, ⟨0xF00A#16, 0xF0FF#16⟩, ⟨0xF015#16, 0xF0FF#16⟩, ⟨0xF018#16, 0xF0FF#16⟩,
   ⟨0xF01E#16, 0xF0FF#16⟩, ⟨0xF029#16, 0xF0FF#16⟩, ⟨0xF033#16, 0xF0FF#16⟩, ⟨0xF055#16, 0xF0FF#16⟩,
   ⟨0xF065#16, 0xF0FF#16⟩]

/-- The word selects the row (R80). -/
def Row.selectedBy (r : Row) (w : Word) : Bool := w &&& r.mask == r.pattern

/-! The word layouts of R71, high bits first. -/

/-- `op` and `NNN`. -/
def layoutNNN (op : Nibble) (nnn : Addr) : Word := op ++ nnn
/-- `op`, `X` and `NN`. -/
def layoutXNN (op x : Nibble) (nn : Byte) : Word := (op ++ x : Byte) ++ nn
/-- `op`, `X`, `Y` and `N`. -/
def layoutXYN (op x y n : Nibble) : Word := (op ++ x : Byte) ++ (y ++ n : Byte)

/-- The word of an instruction (R80, R81). -/
def encode : Instr → Word
  | .cls => 0x00E0#16
  | .ret => 0x00EE#16
  | .jp nnn => layoutNNN 0x1#4 nnn
  | .call nnn => layoutNNN 0x2#4 nnn
  | .seImm x nn => layoutXNN 0x3#4 x nn
  | .sneImm x nn => layoutXNN 0x4#4 x nn
  | .seReg x y => layoutXYN 0x5#4 x y 0x0#4
  | .ldImm x nn => layoutXNN 0x6#4 x nn
  | .addImm x nn => layoutXNN 0x7#4 x nn
  | .ldReg x y => layoutXYN 0x8#4 x y 0x0#4
  | .orReg x y => layoutXYN 0x8#4 x y 0x1#4
  | .andReg x y => layoutXYN 0x8#4 x y 0x2#4
  | .xorReg x y => layoutXYN 0x8#4 x y 0x3#4
  | .addReg x y => layoutXYN 0x8#4 x y 0x4#4
  | .subReg x y => layoutXYN 0x8#4 x y 0x5#4
  | .shr x y => layoutXYN 0x8#4 x y 0x6#4
  | .subnReg x y => layoutXYN 0x8#4 x y 0x7#4
  | .shl x y => layoutXYN 0x8#4 x y 0xE#4
  | .sneReg x y => layoutXYN 0x9#4 x y 0x0#4
  | .ldI nnn => layoutNNN 0xA#4 nnn
  | .jpV0 nnn => layoutNNN 0xB#4 nnn
  | .rnd x nn => layoutXNN 0xC#4 x nn
  | .drw x y n => layoutXYN 0xD#4 x y n
  | .skp x => layoutXNN 0xE#4 x 0x9E#8
  | .sknp x => layoutXNN 0xE#4 x 0xA1#8
  | .ldVxDT x => layoutXNN 0xF#4 x 0x07#8
  | .ldVxK x => layoutXNN 0xF#4 x 0x0A#8
  | .ldDTVx x => layoutXNN 0xF#4 x 0x15#8
  | .ldSTVx x => layoutXNN 0xF#4 x 0x18#8
  | .addI x => layoutXNN 0xF#4 x 0x1E#8
  | .ldF x => layoutXNN 0xF#4 x 0x29#8
  | .ldB x => layoutXNN 0xF#4 x 0x33#8
  | .storeRegs x => layoutXNN 0xF#4 x 0x55#8
  | .loadRegs x => layoutXNN 0xF#4 x 0x65#8

/-- The bytes of an instruction in memory order (R55). -/
def encodeBytes (i : Instr) : List Byte := [highByte (encode i), lowByte (encode i)]

end Sys2Proof
end

