-- ==== Sys2Proof/Machine/Control.lean ====
section
/-! DEFINITION. Control transfer (spec/42_control_flow.md R130 to R139). In each effect `pc` already holds the
advanced value. -/

namespace Sys2Proof.Machine

/-- 00EE `RET` (R130): halts with StackUnderflow on an empty stack (R223). -/
def execRet (s : State) : Host.Outcome State Fault Refusal :=
  runCycleOrHalt (encode .ret) s fun t =>
    match t.pop with
    | .ok (v, u) => .ok (u.setPc v)
    | .error k => .error k

/-- 1NNN `JP NNN` (R131). -/
def execJp (nnn : Addr) (s : State) : Host.Outcome State Fault Refusal :=
  runCycle s fun t => t.setPc (nnn.setWidth 16)

/-- 2NNN `CALL NNN` (R132): pushes the advanced `pc`; halts with StackOverflow on a full stack (R224). -/
def execCall (nnn : Addr) (s : State) : Host.Outcome State Fault Refusal :=
  runCycleOrHalt (encode (.call nnn)) s fun t =>
    match t.push t.pc with
    | .ok u => .ok (u.setPc (nnn.setWidth 16))
    | .error k => .error k

/-- An instruction whose only effect is to skip where a condition of the state holds (R138). -/
def skipWhen (cond : State → Bool) (s : State) : Host.Outcome State Fault Refusal :=
  runCycle s fun t => t.skipIf (cond t)

/-- 3XNN `SE Vx, NN` (R133). -/
def execSeImm (x : Nibble) (nn : Byte) (s : State) : Host.Outcome State Fault Refusal :=
  skipWhen (fun t => t.readV x == nn) s

/-- 4XNN `SNE Vx, NN` (R134). -/
def execSneImm (x : Nibble) (nn : Byte) (s : State) : Host.Outcome State Fault Refusal :=
  skipWhen (fun t => t.readV x != nn) s

/-- 5XY0 `SE Vx, Vy` (R135). -/
def execSeReg (x y : Nibble) (s : State) : Host.Outcome State Fault Refusal :=
  skipWhen (fun t => t.readV x == t.readV y) s

/-- 9XY0 `SNE Vx, Vy` (R136). -/
def execSneReg (x y : Nibble) (s : State) : Host.Outcome State Fault Refusal :=
  skipWhen (fun t => t.readV x != t.readV y) s

/-- BNNN `JP V0, NNN` (R137): the target is not masked. -/
def execJpV0 (nnn : Addr) (s : State) : Host.Outcome State Fault Refusal :=
  runCycle s fun t => t.setPc (nnn.setWidth 16 + (t.readV 0#4).setWidth 16)

end Sys2Proof.Machine
end

