-- ==== Sys2Proof/Machine/Display.lean ====
section
/-! DEFINITION. The display instructions 00E0 and DXYN and the sprite rasterizer (spec/41_display.md). -/

namespace Sys2Proof.Machine

/-- `fb[y][x]` (R28). -/
def pixelOf (fb : BitVec 2048) (y x : Nat) : Bool := fb.getLsbD (displayW * y + x)

/-- The pixel in column x of row y (R28). -/
def State.pixel (s : State) (y x : Nat) : Bool := pixelOf s.fb y x

/-- `fb[y][x] <- 1 - fb[y][x]` (R111). -/
def togglePixel (fb : BitVec 2048) (y x : Nat) : BitVec 2048 := fb ^^^ (1#2048 <<< (displayW * y + x))

/-- What a draw has done so far: the pixels, and whether a collision has occurred. -/
structure Drawing where
  /-- The framebuffer. -/
  fb : BitVec 2048
  /-- `col` of R111. -/
  collision : Bool
deriving DecidableEq, Repr

/-- One sprite column: clipped at the right edge, and where its bit is 1 the pixel is toggled; a pixel that was set
is a collision (R111, R113, R114). -/
def drawColumn (py px : Nat) (bit : Bool) (d : Drawing) : Drawing :=
  if 63 < px then d
  else if bit then { fb := togglePixel d.fb py px, collision := d.collision || pixelOf d.fb py px }
  else d

/-- The first `c` columns of a sprite row, column 0 first; column c reads bit 7 - c (R111, R115). -/
def drawColumns (py x0 : Nat) (row : Byte) : Nat → Drawing → Drawing
  | 0, d => d
  | c + 1, d => drawColumn py (x0 + c) (row.getLsbD (7 - c)) (drawColumns py x0 row c d)

/-- The first `r` rows of the sprite at `I`, row 0 first. A row below the bottom edge is neither read nor drawn; all
the rows after it are below the edge too, so this is the break of R111 (R112). -/
def State.drawRows (s : State) (x0 y0 : Nat) : Nat → Except HaltKind Drawing
  | 0 => .ok { fb := s.fb, collision := false }
  | r + 1 =>
    match s.drawRows x0 y0 r with
    | .ok d =>
      if 31 < y0 + r then .ok d
      else match s.memRead (s.I.toNat + r) with
        | .ok row => .ok (drawColumns (y0 + r) x0 row 8 d)
        | .error k => .error k
    | .error k => .error k

/-- 00E0 `CLS` (R110). -/
def execCls (s : State) : Host.Outcome State Fault Refusal :=
  runCycle s fun t => t.setFb 0#2048

/-- DXYN `DRW Vx, Vy, N` (R111): the coordinates are read before the draw, VF is written after it. -/
def execDrw (x y n : Nibble) (s : State) : Host.Outcome State Fault Refusal :=
  runCycleOrHalt (encode (.drw x y n)) s fun t =>
    match t.drawRows (t.readV x).toNat (t.readV y).toNat n.toNat with
    | .ok d => .ok ((t.setFb d.fb).writeVF (flagByte d.collision))
    | .error k => .error k

end Sys2Proof.Machine
end

