-- ==== Sys2Proof/Machine/IndexMemory.lean ====
section
/-! DEFINITION. The index register and the memory transfers (spec/44_index_memory.md R180 to R186). -/

namespace Sys2Proof.Machine

/-- ANNN `LD I, NNN` (R180). -/
def execLdI (nnn : Addr) (s : State) : Host.Outcome State Fault Refusal :=
  runCycle s fun t => t.setI (nnn.setWidth 16)

/-- FX1E `ADD I, Vx` (R181): modulo 2^16, no flag. -/
def execAddI (x : Nibble) (s : State) : Host.Outcome State Fault Refusal :=
  runCycle s fun t => t.setI (t.I + (t.readV x).setWidth 16)

/-- FX29 `LD F, Vx` (R182): the glyph value is not checked. -/
def execLdF (x : Nibble) (s : State) : Host.Outcome State Fault Refusal :=
  runCycle s fun t => t.setI (glyphAddress (t.readV x))

/-- FX33 `LD B, Vx` (R183): I is unchanged. -/
def execLdB (x : Nibble) (s : State) : Host.Outcome State Fault Refusal :=
  runCycleOrHalt (encode (.ldB x)) s fun t => t.storeBytes t.I.toNat (decimalDigits (t.readV x))

/-- `I <- (I + x + 1) mod 2^16` (R184, R185), from the value I had before the transfer. -/
def State.advanceI (s : State) (i : Word) (x : Nibble) : State := s.setI (i + x.setWidth 16 + 1#16)

/-- FX55 `LD [I], Vx` (R184). -/
def execStoreRegs (x : Nibble) (s : State) : Host.Outcome State Fault Refusal :=
  runCycleOrHalt (encode (.storeRegs x)) s fun t =>
    match t.storeBytes t.I.toNat (t.firstRegs (x.toNat + 1)) with
    | .ok u => .ok (u.advanceI t.I x)
    | .error k => .error k

/-- FX65 `LD Vx, [I]` (R185). -/
def execLoadRegs (x : Nibble) (s : State) : Host.Outcome State Fault Refusal :=
  runCycleOrHalt (encode (.loadRegs x)) s fun t =>
    match t.loadFirstRegs t.I.toNat (x.toNat + 1) with
    | .ok u => .ok (u.advanceI t.I x)
    | .error k => .error k

end Sys2Proof.Machine
end

