-- ==== Sys2Proof/Machine/KeysTimers.lean ====
section
/-! DEFINITION. The key skips, the wait for a key and the timer transfers (spec/45_keys_timers.md R200 to R207). -/

namespace Sys2Proof.Machine

/-- EX9E `SKP x` (R201). -/
def execSkp (x : Nibble) (s : State) : Host.Outcome State Fault Refusal :=
  runCycle s fun t => t.skipIf (pressed t.input.keys (t.keyId x))

/-- EXA1 `SKNP x` (R202). -/
def execSknp (x : Nibble) (s : State) : Host.Outcome State Fault Refusal :=
  runCycle s fun t => t.skipIf (!pressed t.input.keys (t.keyId x))

/-- FX07 `LD Vx, DT` (R203): the value before this cycle's decay. -/
def execLdVxDT (x : Nibble) (s : State) : Host.Outcome State Fault Refusal :=
  runCycle s fun t => t.writeV x t.DT

/-- FX0A `LD Vx, K` (R204): with no key pressed, `pc` goes back to the instruction's own address `a0`. -/
def execLdVxK (x : Nibble) (s : State) : Host.Outcome State Fault Refusal :=
  runCycle s fun t =>
    match firstKey t.input.keys with
    | none => t.setPc s.pc
    | some k => t.writeV x (k.setWidth 8)

/-- FX15 `LD DT, Vx` (R205): the same cycle's decay follows. -/
def execLdDTVx (x : Nibble) (s : State) : Host.Outcome State Fault Refusal :=
  runCycle s fun t => t.setDT (t.readV x)

/-- FX18 `LD ST, Vx` (R206): the same cycle's decay follows. -/
def execLdSTVx (x : Nibble) (s : State) : Host.Outcome State Fault Refusal :=
  runCycle s fun t => t.setST (t.readV x)

end Sys2Proof.Machine
end

