-- ==== Sys2Proof/Machine/Fetch.lean ====
section
/-! DEFINITION. Instruction fetch (spec/40_cycle.md R91), the cycle of an unknown word (R100), the placing of a word
where the next fetch reads it, and the outputs the host reads between cycles (spec/60_exceptions.md R233). -/

namespace Sys2Proof.Machine

/-- The word at `pc`: two byte reads, the first byte high, the first byte checked first (R55, R91, R228). -/
def State.fetchWord (s : State) : Except HaltKind Word :=
  match s.memRead s.pc.toNat with
  | .ok hi =>
    match s.memRead (s.pc.toNat + 1) with
    | .ok lo => .ok (wordOfBytes hi lo)
    | .error k => .error k
  | .error k => .error k

/-- The cycle of a word that matches no pattern: the advance and the decay, nothing else (R76, R100). -/
def execUnknown (s : State) : Host.Outcome State Fault Refusal := runCycle s fun t => t

/-- The next step fetches: a program is loaded, the core has not halted, and the fetch at `pc` does not raise. -/
def State.fetches (s : State) : Bool :=
  s.loaded && !s.halted && !(s.params.addrPolicy == .fault && decide (4094 < s.pc.toNat))

/-- The state if it fetches, and otherwise the state as a load leaves it: at 0x200, loaded, not halted (R252,
R253). -/
def State.readyToFetch (s : State) : State :=
  if s.fetches then s else { s with pc := 0x200#16, loaded := true, halted := false, fault := none }

/-- Store the word of the `nbits` low bits of `w` where the next step fetches, big-endian (R55). From the reset
state this stands for the load of R252. -/
def State.placeFetchWord (s : State) (nbits w : Nat) : State :=
  let word : Word := BitVec.ofNat 16 (w % 2 ^ nbits)
  let t := s.readyToFetch
  (t.poke (t.pc.toNat % memSize) (highByte word)).poke ((t.pc.toNat + 1) % memSize) (lowByte word)

/-- What the host reads between cycles (R233). -/
structure Outputs where
  /-- The framebuffer, row-major. -/
  fb : BitVec 2048
  /-- The delay timer. -/
  DT : Byte
  /-- The sound timer. -/
  ST : Byte
  /-- The sound request, `ST != 0` (R207). -/
  soundRequest : Bool
  /-- The core has halted. -/
  halted : Bool
  /-- The diagnostic of a halt. -/
  fault : Option FaultRecord
deriving DecidableEq, Repr

/-- The core's sound-request output (R207). -/
def State.soundRequest (s : State) : Bool := s.ST != 0#8

/-- The outputs of R233. -/
def State.outputs (s : State) : Outputs :=
  { fb := s.fb, DT := s.DT, ST := s.ST, soundRequest := s.soundRequest, halted := s.halted, fault := s.fault }

end Sys2Proof.Machine
end

