-- ==== Sys2Proof/Machine/Cycle.lean ====
section
/-! DEFINITION. The cycle (spec/40_cycle.md R90): what the step of the machine does. -/

namespace Sys2Proof.Machine

/-- One cycle (R90). A halted core changes nothing (R98); before a successful load no cycle is defined (R251); a fetch
that raises is a halt with no word (R99); an unknown word is a no-op (R100); any other word runs its instruction. -/
def cycle (s : State) : Host.Outcome State Fault Refusal :=
  if s.halted then .next s
  else if !s.loaded then .refused .cycleBeforeLoad
  else match s.fetchWord with
    | .error k => .next (s.takeHalt k none)
    | .ok w =>
      match decodeWord w with
      | none => execUnknown s
      | some i => exec i s

end Sys2Proof.Machine
end

