-- ==== Sys2Proof/Machine/Step.lean ====
section
/-! DEFINITION. The one step of the machine, a cycle (spec/40_cycle.md R90). -/

namespace Sys2Proof.Machine

/-- The machine's only step: one cycle (R90). -/
def step (s : State) : Host.Outcome State Fault Refusal := cycle s

/-- The state with an instruction placed where the next step fetches it (log entry 5). -/
def State.withFetchWord (s : State) (nbits w : Nat) : State := s.placeFetchWord nbits w

end Sys2Proof.Machine
end

