-- ==== Sys2Proof/Safety.lean ====
section
/-! DEFINITION. What a safe state is, and the words the statements use: what a cycle leaves alone, the registers each
instruction may write (spec/10_state.md R36), and the pixels a sprite covers (spec/41_display.md R111). -/

namespace Sys2Proof.Machine

/-- The stack holds at most `STACK_DEPTH` entries (R26, R27). -/
def State.stackFits (s : State) : Bool :=
  match s.params.stackDepth with
  | none => true
  | some d => decide (s.stack.length ≤ d)

/-- A safe state: memory in canonical form; the stack within its depth, with return addresses at most 4095 (R27,
R130); `pc` at most 0x10FE (R137, R138); a fault record exactly when halted (R30); no halt before a load (R251). -/
abbrev State.Inv (s : State) : Prop :=
  s.mem.wf s.params.font = true ∧ s.stackFits = true ∧ (∀ a ∈ s.stack, a.toNat ≤ 4095) ∧ s.pc.toNat ≤ 0x10FE ∧
    s.halted = s.fault.isSome ∧ (s.halted = true → s.loaded = true)

end Sys2Proof.Machine

namespace Sys2Proof.Claims

open Sys2Proof.Machine

/-- The halt of an instruction: the state before the cycle with the halt and its record (R99, R222). -/
def halted (s : State) (k : HaltKind) (w : Option Word) : State :=
  { s with halted := true, fault := some { kind := k, pc := s.pc, word := w } }

/-- What a completed cycle does beside the instruction's own writes: no halt, the parameters and the loaded program
stay, and the next cycle's inputs come up. -/
def Completed (s t : State) : Prop :=
  t.halted = s.halted ∧ t.fault = s.fault ∧ t.params = s.params ∧ t.loaded = s.loaded ∧
    t.inputs = s.inputs.tail ∧ t.inputNo = s.inputNo + 1

/-- Both timers hold their old values decayed once (R96). -/
def TimersDecayed (s t : State) : Prop :=
  t.DT = decayed s.params.timerDecay s.DT ∧ t.ST = decayed s.params.timerDecay s.ST

/-- Every register holds what it held. -/
def SameRegisters (s t : State) : Prop := ∀ r : Nibble, t.readV r = s.readV r

/-- Every byte of memory reads as before. -/
def SameMemory (s t : State) : Prop := ∀ a : Nat, t.peek a = s.peek a

/-- The frame of an instruction that writes only V registers. -/
def OnlyRegisters (s t : State) : Prop :=
  t.I = s.I ∧ t.stack = s.stack ∧ t.fb = s.fb ∧ SameMemory s t ∧ TimersDecayed s t ∧ Completed s t

/-- The frame of an instruction that writes nothing but `pc`. -/
def OnlyPc (s t : State) : Prop := SameRegisters s t ∧ OnlyRegisters s t

/-- The frame of an instruction that writes nothing but `pc` and the stack. -/
def OnlyPcAndStack (s t : State) : Prop :=
  SameRegisters s t ∧ t.I = s.I ∧ t.fb = s.fb ∧ SameMemory s t ∧ TimersDecayed s t ∧ Completed s t

/-- The frame of an instruction that writes nothing but `I`. -/
def OnlyI (s t : State) : Prop :=
  SameRegisters s t ∧ t.stack = s.stack ∧ t.fb = s.fb ∧ SameMemory s t ∧ TimersDecayed s t ∧ Completed s t

/-- The frame of an instruction that writes nothing but memory and `I`. -/
def OnlyMemoryAndI (s t : State) : Prop :=
  SameRegisters s t ∧ t.stack = s.stack ∧ t.fb = s.fb ∧ TimersDecayed s t ∧ Completed s t

/-- Every word of a row of the opcode map (R80) decodes to the row's instruction, its fields read from the word. -/
def RowDecodes (pattern mask : Word) (instr : Word → Instr) : Prop :=
  ∀ w : Word, w &&& mask = pattern → decodeWord w = some (instr w)

/-- The registers an instruction may write (R36). -/
def writesV : Instr → Nibble → Prop
  | .ldImm x _, r | .addImm x _, r | .ldReg x _, r | .orReg x _, r | .andReg x _, r | .xorReg x _, r | .rnd x _, r
  | .ldVxDT x, r | .ldVxK x, r => r = x
  | .addReg x _, r | .subReg x _, r | .shr x _, r | .subnReg x _, r | .shl x _, r => r = x ∨ r = 0xF#4
  | .drw _ _ _, r => r = 0xF#4
  | .loadRegs x, r => r.toNat ≤ x.toNat
  | .cls, _ | .ret, _ | .jp _, _ | .call _, _ | .seImm _ _, _ | .sneImm _ _, _ | .seReg _ _, _ | .sneReg _ _, _
  | .ldI _, _ | .jpV0 _, _ | .skp _, _ | .sknp _, _ | .ldDTVx _, _ | .ldSTVx _, _ | .addI _, _ | .ldF _, _
  | .ldB _, _ | .storeRegs _, _ => False

/-- The instructions that may write `I` (R24). -/
def writesI (i : Instr) : Prop :=
  (∃ nnn, i = .ldI nnn) ∨ ∃ x, i = .addI x ∨ i = .ldF x ∨ i = .storeRegs x ∨ i = .loadRegs x

/-- The instructions that may write `pc` beside the automatic advance (R23, R36). -/
def writesPc (i : Instr) : Prop :=
  i = .ret ∨ (∃ nnn, i = .jp nnn ∨ i = .call nnn ∨ i = .jpV0 nnn) ∨ (∃ x nn, i = .seImm x nn ∨ i = .sneImm x nn) ∨
    (∃ x y, i = .seReg x y ∨ i = .sneReg x y) ∨ ∃ x, i = .skp x ∨ i = .sknp x ∨ i = .ldVxK x

/-- The row `r` of the sprite is drawn: it is one of the N rows and not below the bottom edge (R111, R112). -/
def rowDrawn (y0 n r : Nat) : Prop := r < n ∧ y0 + r ≤ 31

/-- The sprite at (x0, y0) of N rows read at `I` has a 1 bit on the pixel (y, x); the byte of row r is read at
`I + r`, resolved (R54, R111, R115). -/
def spriteCovers (s : State) (x0 y0 n y x : Nat) : Prop :=
  y ≤ 31 ∧ x ≤ 63 ∧ y0 ≤ y ∧ y < y0 + n ∧ x0 ≤ x ∧ x < x0 + 8 ∧
    ∃ a, resolve s.params (s.I.toNat + (y - y0)) = .ok a ∧ (s.peek a).getLsbD (7 - (x - x0)) = true

/-- The inputs of the coming cycles put in place. -/
def withInputs (s : State) (l : List CycleInput) : State := { s with inputs := l }

/-- `FIRST_KEY` may be this function (R234). -/
def Admissible (f : Keys → Option Nibble) : Prop :=
  ∀ keys, (f keys = none ↔ keys = 0#16) ∧ ∀ k, f keys = some k → keys.getLsbD k.toNat = true

end Sys2Proof.Claims
end

