-- ==== Sys2Proof/Certificates/Slice0/Obligations.lean ====
section
/-! DEFINITION. The statements about the machine, each formalising rules of spec/. A clause that rests on a choice
the spec marks as its own (a decision D<n>, a derivation) or on a log entry is named in the docstring. The statements
quantify over every state, so over every value of the parameters of spec/00_scope.md R7, every listed input and,
where none is listed, the free ones. -/

open Sys2Proof Sys2Proof.Machine Sys2Proof.Claims

/-! ## Encoding -/

/-- Decoding the word of any instruction gives the instruction back, every operand at every value (30_encoding.md
R75, R81). Every `Instr` is well formed (its operand types carry the widths of R71). -/
def Obligations.DecodeOfEncode : Prop :=
  ∀ i : Instr, i.wellFormed = true ∧ decodeWord (encode i) = some i ∧ decode (encodeBytes i) = .ok (i, [])

/-- A word that decodes is the word of its instruction: no bit of a known word is dropped (30_encoding.md R71, R75,
R81; the ignored Y of 8XY6 and 8XYE is kept in the instruction). -/
def Obligations.EncodeOfDecode : Prop :=
  ∀ (w : Word) (i : Instr), decodeWord w = some i → encode i = w

/-- A word is known exactly when a row of the opcode map selects it, and then exactly one row does (30_encoding.md
R74, R78, R80). -/
def Obligations.KnownWordHasExactlyOneRow : Prop :=
  ∀ w : Word, ((decodeWord w).isSome = true ↔ ∃ r ∈ opcodeMap, r.selectedBy w = true) ∧
    ∀ r ∈ opcodeMap, ∀ r' ∈ opcodeMap, r.selectedBy w = true → r'.selectedBy w = true → r = r'

/-- The opcode map of R80, row by row: the words a row's Match and Mask select decode to the row's instruction with
the fields the row uses. -/
def Obligations.OpcodeMapDecodes : Prop :=
  (RowDecodes 0x00E0 0xFFFF (fun _ => .cls) ∧ RowDecodes 0x00EE 0xFFFF (fun _ => .ret) ∧
   RowDecodes 0x1000 0xF000 (fun w => .jp (w.extractLsb' 0 12)) ∧
   RowDecodes 0x2000 0xF000 (fun w => .call (w.extractLsb' 0 12)) ∧
   RowDecodes 0x3000 0xF000 (fun w => .seImm (w.extractLsb' 8 4) (w.extractLsb' 0 8)) ∧
   RowDecodes 0x4000 0xF000 (fun w => .sneImm (w.extractLsb' 8 4) (w.extractLsb' 0 8)) ∧
   RowDecodes 0x5000 0xF00F (fun w => .seReg (w.extractLsb' 8 4) (w.extractLsb' 4 4)) ∧
   RowDecodes 0x6000 0xF000 (fun w => .ldImm (w.extractLsb' 8 4) (w.extractLsb' 0 8)) ∧
   RowDecodes 0x7000 0xF000 (fun w => .addImm (w.extractLsb' 8 4) (w.extractLsb' 0 8))) ∧
  (RowDecodes 0x8000 0xF00F (fun w => .ldReg (w.extractLsb' 8 4) (w.extractLsb' 4 4)) ∧
   RowDecodes 0x8001 0xF00F (fun w => .orReg (w.extractLsb' 8 4) (w.extractLsb' 4 4)) ∧
   RowDecodes 0x8002 0xF00F (fun w => .andReg (w.extractLsb' 8 4) (w.extractLsb' 4 4)) ∧
   RowDecodes 0x8003 0xF00F (fun w => .xorReg (w.extractLsb' 8 4) (w.extractLsb' 4 4)) ∧
   RowDecodes 0x8004 0xF00F (fun w => .addReg (w.extractLsb' 8 4) (w.extractLsb' 4 4)) ∧
   RowDecodes 0x8005 0xF00F (fun w => .subReg (w.extractLsb' 8 4) (w.extractLsb' 4 4)) ∧
   RowDecodes 0x8006 0xF00F (fun w => .shr (w.extractLsb' 8 4) (w.extractLsb' 4 4)) ∧
   RowDecodes 0x8007 0xF00F (fun w => .subnReg (w.extractLsb' 8 4) (w.extractLsb' 4 4)) ∧
   RowDecodes 0x800E 0xF00F (fun w => .shl (w.extractLsb' 8 4) (w.extractLsb' 4 4)) ∧
   RowDecodes 0x9000 0xF00F (fun w => .sneReg (w.extractLsb' 8 4) (w.extractLsb' 4 4))) ∧
  (RowDecodes 0xA000 0xF000 (fun w => .ldI (w.extractLsb' 0 12)) ∧
   RowDecodes 0xB000 0xF000 (fun w => .jpV0 (w.extractLsb' 0 12)) ∧
   RowDecodes 0xC000 0xF000 (fun w => .rnd (w.extractLsb' 8 4) (w.extractLsb' 0 8)) ∧
   RowDecodes 0xD000 0xF000 (fun w => .drw (w.extractLsb' 8 4) (w.extractLsb' 4 4) (w.extractLsb' 0 4)) ∧
   RowDecodes 0xE09E 0xF0FF (fun w => .skp (w.extractLsb' 8 4)) ∧
   RowDecodes 0xE0A1 0xF0FF (fun w => .sknp (w.extractLsb' 8 4))) ∧
  (RowDecodes 0xF007 0xF0FF (fun w => .ldVxDT (w.extractLsb' 8 4)) ∧
   RowDecodes 0xF00A 0xF0FF (fun w => .ldVxK (w.extractLsb' 8 4)) ∧
   RowDecodes 0xF015 0xF0FF (fun w => .ldDTVx (w.extractLsb' 8 4)) ∧
   RowDecodes 0xF018 0xF0FF (fun w => .ldSTVx (w.extractLsb' 8 4)) ∧
   RowDecodes 0xF01E 0xF0FF (fun w => .addI (w.extractLsb' 8 4)) ∧
   RowDecodes 0xF029 0xF0FF (fun w => .ldF (w.extractLsb' 8 4)) ∧
   RowDecodes 0xF033 0xF0FF (fun w => .ldB (w.extractLsb' 8 4)) ∧
   RowDecodes 0xF055 0xF0FF (fun w => .storeRegs (w.extractLsb' 8 4)) ∧
   RowDecodes 0xF065 0xF0FF (fun w => .loadRegs (w.extractLsb' 8 4)))

/-- The unknown words are exactly those R76 lists. That 5XYN and 9XYN with N ≠ 0 are among them is the spec's own
choice D10. -/
def Obligations.UnknownWordsAreTheListedOnes : Prop :=
  ∀ w : Word, decodeWord w = none ↔
    (w.toNat < 0x1000 ∧ w.toNat ≠ 0x00E0 ∧ w.toNat ≠ 0x00EE) ∨
    ((w.toNat / 0x1000 = 5 ∨ w.toNat / 0x1000 = 9) ∧ w.toNat % 16 ≠ 0) ∨
    (w.toNat / 0x1000 = 8 ∧ (w.toNat % 16 = 0x8 ∨ w.toNat % 16 = 0x9 ∨ w.toNat % 16 = 0xA ∨ w.toNat % 16 = 0xB ∨
      w.toNat % 16 = 0xC ∨ w.toNat % 16 = 0xD ∨ w.toNat % 16 = 0xF)) ∨
    (w.toNat / 0x1000 = 0xE ∧ w.toNat % 256 ≠ 0x9E ∧ w.toNat % 256 ≠ 0xA1) ∨
    (w.toNat / 0x1000 = 0xF ∧ w.toNat % 256 ≠ 0x07 ∧ w.toNat % 256 ≠ 0x0A ∧ w.toNat % 256 ≠ 0x15 ∧
      w.toNat % 256 ≠ 0x18 ∧ w.toNat % 256 ≠ 0x1E ∧ w.toNat % 256 ≠ 0x29 ∧ w.toNat % 256 ≠ 0x33 ∧
      w.toNat % 256 ≠ 0x55 ∧ w.toNat % 256 ≠ 0x65)

/-- Words written out from the encodings, with what they stand for (95_test_vectors.md E1, E2, E6, E7, E9, E11, E13,
E16, E17, E19; 30_encoding.md R81's example 0x8014). -/
def Obligations.SampleWordsDecode : Prop :=
  decode [0x00#8, 0xE0#8] = .ok (.cls, []) ∧ decode [0x00#8, 0xEE#8] = .ok (.ret, []) ∧
  decode [0x1A#8, 0xBC#8] = .ok (.jp 0xABC#12, []) ∧ decode [0x51#8, 0x20#8] = .ok (.seReg 1#4 2#4, []) ∧
  decode [0x80#8, 0x14#8] = .ok (.addReg 0#4 1#4, []) ∧ decode [0x80#8, 0x1E#8] = .ok (.shl 0#4 1#4, []) ∧
  decode [0x91#8, 0x20#8] = .ok (.sneReg 1#4 2#4, []) ∧ decode [0xD0#8, 0x12#8] = .ok (.drw 0#4 1#4 2#4, []) ∧
  decode [0xE1#8, 0x9E#8] = .ok (.skp 1#4, []) ∧ decode [0xF1#8, 0x65#8] = .ok (.loadRegs 1#4, []) ∧
  decode [0x51#8, 0x21#8] = .error (.unknown 0x5121#16)

/-! ## The cycle -/

/-- When a loaded core that has not halted reads two bytes at `pc` and `pc` + 1 that decode to an instruction, the
step is the cycle of that instruction (40_cycle.md R90, R91, R94; that no cycle runs before a load is R251, D22). -/
def Obligations.StepRunsDecodedInstruction : Prop :=
  ∀ (s : State) (hi lo : Byte) (i : Instr), s.halted = false → s.loaded = true →
    s.memRead s.pc.toNat = .ok hi → s.memRead (s.pc.toNat + 1) = .ok lo → decode [hi, lo] = .ok (i, []) →
    step s = exec i s

/-- A halted core stays as it is through any number of cycles: the halt is sticky (40_cycle.md R98, 60_exceptions.md
R222, the spec's own choice D5). -/
def Obligations.HaltIsSticky : Prop :=
  ∀ (k : Nat) (s : State), s.halted = true → core.run k s = .next s

/-- Before a successful load no cycle is defined, and the step refuses by name (70_reset_and_hazards.md R251, D22,
U20; log entry 5: the refusal is the model's). -/
def Obligations.CycleBeforeLoadIsRefused : Prop :=
  ∀ s : State, s.halted = false → s.loaded = false → step s = .refused .cycleBeforeLoad

/-- A word that matches no pattern is a no-op: `pc` advances and wraps, both timers decay, nothing else changes
(R100). -/
def Obligations.UnknownWordIsNoOp : Prop :=
  ∀ (s : State) (w : Word), s.halted = false → s.loaded = true → s.fetchWord = .ok w → decodeWord w = none →
    ∃ t, step s = .next t ∧ t.pc = advancedPc s.pc ∧ OnlyPc s t

/-- The fetch of an address above 4095 (first or second byte): under FAULT the core halts with OutOfBoundsAddress and
no word; under MASK it never raises, and the word is that of the two bytes at the addresses modulo 4096, first byte
high (R54, R91, R99, R225; the policies are the spec's own choice D1, the record D5). -/
def Obligations.FetchAboveMemory : Prop :=
  ∀ s : State,
    (s.params.addrPolicy = .mask →
      s.fetchWord = .ok (s.peek (s.pc.toNat % 4096) ++ s.peek ((s.pc.toNat + 1) % 4096))) ∧
    (s.params.addrPolicy = .fault → s.pc.toNat ≤ 4094 →
      s.fetchWord = .ok (s.peek s.pc.toNat ++ s.peek (s.pc.toNat + 1))) ∧
    (s.params.addrPolicy = .fault → 4095 ≤ s.pc.toNat → s.halted = false → s.loaded = true →
      step s = .next (halted s .outOfBoundsAddress none))

/-- A cycle of a loaded core, or of a halted one, gives a next state, neither a fault nor a refusal (40_cycle.md R90,
R94, R98 to R100, 60_exceptions.md R222). That a cycle that halts the core is itself a next state, the one R99 gives,
is the spec's own choice D5 and the model's log entry 8; a halt is fatal all the same (R222), and HaltIsSticky says
that no later cycle changes its state. -/
def Obligations.LoadedStepAnswersNext : Prop :=
  ∀ s : State, s.loaded = true ∨ s.halted = true → ∃ t, step s = .next t

/-- The automatic advance: `pc` plus 2 modulo 2^16, and 0 where that exceeds 4095 (40_cycle.md R92, R93; when the
wrap happens and that 4097 becomes 0 are the spec's own choices D6, D7). -/
def Obligations.AdvanceWrapsToZero : Prop :=
  ∀ a0 : Word, (advancedPc a0).toNat =
    if 4095 < (a0.toNat + 2) % 65536 then 0 else (a0.toNat + 2) % 65536

/-- Every instruction that does not write `pc`, when it does not halt, leaves `pc` at the advanced address
(40_cycle.md R92, 10_state.md R36; D6). -/
def Obligations.PcAdvancesUnlessWritten : Prop :=
  ∀ (i : Instr) (s t : State), exec i s = .next t → s.halted = false → t.halted = false → ¬ writesPc i →
    t.pc = advancedPc s.pc

/-- Both timers are decayed exactly once in every cycle that does not halt, whatever word ran, after an FX15 or FX18
has written the timer (R96). -/
def Obligations.TimersDecayOncePerCycle : Prop :=
  ∀ (s t : State) (w : Word), s.halted = false → s.loaded = true → s.fetchWord = .ok w → step s = .next t →
    t.halted = false →
    t.DT = decayed s.params.timerDecay
      (match decodeWord w with | some (.ldDTVx x) => s.readV x | _ => s.DT) ∧
    t.ST = decayed s.params.timerDecay
      (match decodeWord w with | some (.ldSTVx x) => s.readV x | _ => s.ST)

/-- `Dec`: under SATURATE one less, 0 staying 0; under WRAP one less modulo 256 (40_cycle.md R97; which of them the
hardware has is the spec's own choice D2). -/
def Obligations.DecaySaturatesOrWraps : Prop :=
  ∀ v : Byte, (decayed .saturate v).toNat = v.toNat - 1 ∧ (decayed .wrap v).toNat = (v.toNat + 255) % 256

/-! ## Invariants and the halt -/

/-- Every step keeps the invariant: memory in canonical form, the stack within its depth with return addresses at
most 4095, `pc` at most 0x10FE, a fault record exactly when halted (10_state.md R27, R30, 42_control_flow.md R130,
R137, R138). -/
def Obligations.StepKeepsInvariant : Prop :=
  ∀ s t : State, s.Inv → step s = .next t → t.Inv

/-- The invariant holds after reset, whatever the parameters. -/
def Obligations.InvariantAtReset : Prop := ∀ p : Params, (State.resetWith p).Inv

/-- A load keeps the invariant. -/
def Obligations.LoadKeepsInvariant : Prop :=
  ∀ (s t : State) (image : List Byte), s.Inv → s.load image = .ok t → t.Inv

/-- A step that halts the core leaves exactly the state before the cycle with the halt and its record: the kind, the
fetch address, and the word, or none when the fetch raised (40_cycle.md R99, 60_exceptions.md R222, R229, the spec's
own choice D5). -/
def Obligations.HaltIsPrecise : Prop :=
  ∀ s t : State, step s = .next t → s.halted = false → t.halted = true →
    ∃ k, (t = halted s k none ∧ s.fetchWord = .error k) ∨ ∃ w, t = halted s k (some w) ∧ s.fetchWord = .ok w

/-- The causes of a halt within an instruction: 00EE with an empty stack, 2NNN with a full one, and under FAULT an
access of DXYN, FX33, FX55 or FX65 (60_exceptions.md R228, derived there; R223 to R225, D1, D3, D4). -/
def Obligations.HaltCauses : Prop :=
  ∀ (i : Instr) (s t : State), exec i s = .next t → s.halted = false → t.halted = true →
    (i = .ret ∧ s.stack = [] ∧ t = halted s .stackUnderflow (some (encode i))) ∨
    ((∃ nnn, i = .call nnn) ∧ s.params.stackDepth = some s.stack.length ∧
      t = halted s .stackOverflow (some (encode i))) ∨
    (((∃ x y n, i = .drw x y n) ∨ ∃ x, i = .ldB x ∨ i = .storeRegs x ∨ i = .loadRegs x) ∧
      s.params.addrPolicy = .fault ∧ 4081 ≤ s.I.toNat ∧ t = halted s .outOfBoundsAddress (some (encode i)))

/-! ## Whole-machine frames (10_state.md R36, derived there) -/

/-- An instruction writes no V register but those R36 gives it. -/
def Obligations.RegisterWriteSets : Prop :=
  ∀ (i : Instr) (s t : State) (r : Nibble), exec i s = .next t → ¬ writesV i r → t.readV r = s.readV r

/-- Only ANNN, FX1E, FX29, FX55 and FX65 write `I` (R24). -/
def Obligations.IndexWriters : Prop :=
  ∀ (i : Instr) (s t : State), exec i s = .next t → ¬ writesI i → t.I = s.I

/-- Only FX33 and FX55 write memory (20_memory.md R51). -/
def Obligations.MemoryWriters : Prop :=
  ∀ (i : Instr) (s t : State), exec i s = .next t → (∀ x, i ≠ .ldB x ∧ i ≠ .storeRegs x) → SameMemory s t

/-- Only 00E0 and DXYN write the framebuffer (10_state.md R28), and only 2NNN and 00EE the stack (R26). -/
def Obligations.FramebufferAndStackWriters : Prop :=
  ∀ (i : Instr) (s t : State), exec i s = .next t →
    (i ≠ .cls → (∀ x y n, i ≠ .drw x y n) → t.fb = s.fb) ∧
    (i ≠ .ret → (∀ nnn, i ≠ .call nnn) → t.stack = s.stack)

/-- `rand` is read only by CXNN, and `keys` only by EX9E, EXA1 and FX0A: two cycles that differ only in an input the
instruction does not read give states that differ in nothing but the inputs listed (60_exceptions.md R233, D16,
D17). -/
def Obligations.InputsReadOnlyWhereSaid : Prop :=
  ∀ (i : Instr) (s t t' : State) (c c' : CycleInput) (l : List CycleInput),
    exec i (withInputs s (c :: l)) = .next t → exec i (withInputs s (c' :: l)) = .next t' →
    (c.keys = c'.keys ∨ ∀ x, i ≠ .skp x ∧ i ≠ .sknp x ∧ i ≠ .ldVxK x) →
    (c.rand = c'.rand ∨ ∀ x nn, i ≠ .rnd x nn) →
    withInputs t l = withInputs t' l

/-! ## The ALU -/

/-- 6XNN writes NN to V[x], and nothing else (R151). -/
def Obligations.LoadImmediate : Prop :=
  RowDecodes 0x6000 0xF000 (fun w => .ldImm (w.extractLsb' 8 4) (w.extractLsb' 0 8)) ∧
  ∀ (x : Nibble) (nn : Byte) (s : State), ∃ t, exec (.ldImm x nn) s = .next t ∧
    (∀ r, t.readV r = if r = x then nn else s.readV r) ∧ OnlyRegisters s t

/-- 7XNN adds NN to V[x] modulo 256 with no flag effect: VF is unchanged unless X = F (R152). -/
def Obligations.AddImmediate : Prop :=
  RowDecodes 0x7000 0xF000 (fun w => .addImm (w.extractLsb' 8 4) (w.extractLsb' 0 8)) ∧
  ∀ (x : Nibble) (nn : Byte) (s : State), ∃ t, exec (.addImm x nn) s = .next t ∧
    (∀ r, (t.readV r).toNat = if r = x then ((s.readV x).toNat + nn.toNat) % 256 else (s.readV r).toNat) ∧
    OnlyRegisters s t

/-- 8XY0 copies V[y] to V[x] (R153). -/
def Obligations.CopyRegister : Prop :=
  RowDecodes 0x8000 0xF00F (fun w => .ldReg (w.extractLsb' 8 4) (w.extractLsb' 4 4)) ∧
  ∀ (x y : Nibble) (s : State), ∃ t, exec (.ldReg x y) s = .next t ∧
    (∀ r, t.readV r = if r = x then s.readV y else s.readV r) ∧ OnlyRegisters s t

/-- 8XY1, 8XY2 and 8XY3 write the bitwise OR, AND and XOR of V[x] and V[y] to V[x], bit by bit, and no flag
(43_alu.md R154 to R156; that VF is unchanged is the spec's own choice D11). -/
def Obligations.BitwiseLogic : Prop :=
  ∀ (x y : Nibble) (s : State),
    (∃ t, exec (.orReg x y) s = .next t ∧ OnlyRegisters s t ∧ (∀ r, r ≠ x → t.readV r = s.readV r) ∧
      ∀ k, (t.readV x).getLsbD k = ((s.readV x).getLsbD k || (s.readV y).getLsbD k)) ∧
    (∃ t, exec (.andReg x y) s = .next t ∧ OnlyRegisters s t ∧ (∀ r, r ≠ x → t.readV r = s.readV r) ∧
      ∀ k, (t.readV x).getLsbD k = ((s.readV x).getLsbD k && (s.readV y).getLsbD k)) ∧
    (∃ t, exec (.xorReg x y) s = .next t ∧ OnlyRegisters s t ∧ (∀ r, r ≠ x → t.readV r = s.readV r) ∧
      ∀ k, (t.readV x).getLsbD k = ((s.readV x).getLsbD k ^^ (s.readV y).getLsbD k))

/-- 8XY4: V[x] is the sum modulo 256 and VF the carry, for every x and y; where X = F, VF ends holding the flag
(43_alu.md R157; the last is the spec's own choice D9). -/
def Obligations.AddWithCarry : Prop :=
  ∀ (x y : Nibble) (s : State), ∃ t, exec (.addReg x y) s = .next t ∧
    (∀ r, (t.readV r).toNat =
      if r = 0xF#4 then (if 255 < (s.readV x).toNat + (s.readV y).toNat then 1 else 0)
      else if r = x then ((s.readV x).toNat + (s.readV y).toNat) % 256 else (s.readV r).toNat) ∧
    OnlyRegisters s t

/-- 8XY5 and 8XY7: V[x] is V[x] minus V[y], or V[y] minus V[x], modulo 256, and VF is 1 exactly when there is no
borrow; where X = F, VF ends holding the flag (43_alu.md R158, R160; the last is the spec's own choice D9). -/
def Obligations.SubtractNoBorrow : Prop :=
  ∀ (x y : Nibble) (s : State),
    (∃ t, exec (.subReg x y) s = .next t ∧
      (∀ r, (t.readV r).toNat =
        if r = 0xF#4 then (if (s.readV y).toNat ≤ (s.readV x).toNat then 1 else 0)
        else if r = x then ((s.readV x).toNat + 256 - (s.readV y).toNat) % 256 else (s.readV r).toNat) ∧
      OnlyRegisters s t) ∧
    (∃ t, exec (.subnReg x y) s = .next t ∧
      (∀ r, (t.readV r).toNat =
        if r = 0xF#4 then (if (s.readV x).toNat ≤ (s.readV y).toNat then 1 else 0)
        else if r = x then ((s.readV y).toNat + 256 - (s.readV x).toNat) % 256 else (s.readV r).toNat) ∧
      OnlyRegisters s t)

/-- 8XY6 and 8XYE shift V[x] by 1, whatever Y is, and VF is the bit shifted out; where X = F, VF ends holding the
flag (43_alu.md R159, R161, 30_encoding.md R77; the last is the spec's own choice D9). -/
def Obligations.ShiftByOne : Prop :=
  ∀ (x y : Nibble) (s : State),
    (∃ t, exec (.shr x y) s = .next t ∧
      (∀ r, (t.readV r).toNat = if r = 0xF#4 then (s.readV x).toNat % 2
        else if r = x then (s.readV x).toNat / 2 else (s.readV r).toNat) ∧
      OnlyRegisters s t) ∧
    (∃ t, exec (.shl x y) s = .next t ∧
      (∀ r, (t.readV r).toNat = if r = 0xF#4 then (s.readV x).toNat / 128
        else if r = x then 2 * (s.readV x).toNat % 256 else (s.readV r).toNat) ∧
      OnlyRegisters s t)

/-- CXNN writes the cycle's random byte AND NN to V[x], so 0 where NN is 0, whatever the random byte (43_alu.md R162;
that `rand` is a free input is the spec's own choice D16, and how it reaches the model log entry 3). -/
def Obligations.RandomAndImmediate : Prop :=
  ∀ (x : Nibble) (nn : Byte) (s : State), ∃ t, exec (.rnd x nn) s = .next t ∧ OnlyRegisters s t ∧
    (∀ r, r ≠ x → t.readV r = s.readV r) ∧
    (∀ k, (t.readV x).getLsbD k = (s.input.rand.getLsbD k && nn.getLsbD k)) ∧ (nn = 0#8 → t.readV x = 0#8)

/-! ## The display -/

/-- 00E0 unsets every pixel, whatever the framebuffer held, and touches no register, `I` or memory (R110). -/
def Obligations.ClearScreen : Prop :=
  RowDecodes 0x00E0 0xFFFF (fun _ => .cls) ∧
  ∀ s : State, ∃ t, exec .cls s = .next t ∧ (∀ y x, y ≤ 31 → x ≤ 63 → t.pixel y x = false) ∧
    SameRegisters s t ∧ t.I = s.I ∧ t.stack = s.stack ∧ SameMemory s t ∧ TimersDecayed s t ∧ Completed s t

/-- DXYN, where the read of every drawn row resolves: each pixel is toggled exactly where the sprite at (V[x], V[y])
has a 1 bit on it, VF is 1 exactly when a toggled pixel was set, and nothing else is written; the coordinates are the
registers' values before the draw (41_display.md R111 to R115). That a row's byte is read at its resolved address,
modulo 4096 under MASK (20_memory.md R54), is the spec's own choice D1; that coordinates are not reduced and that
clipped rows are not read are D12 and D13. -/
def Obligations.DrawTogglesTheSprite : Prop :=
  ∀ (x y n : Nibble) (s : State),
    (s.params.addrPolicy = .mask ∨
      ∀ r, rowDrawn (s.readV y).toNat n.toNat r → s.I.toNat + r ≤ 4095) →
    ∃ t, exec (.drw x y n) s = .next t ∧
      (∀ py px, py ≤ 31 → px ≤ 63 →
        (t.pixel py px ≠ s.pixel py px ↔ spriteCovers s (s.readV x).toNat (s.readV y).toNat n.toNat py px)) ∧
      (∀ r, t.readV r = if r = 0xF#4 then t.readV 0xF#4 else s.readV r) ∧
      (t.readV 0xF#4 = 1#8 ∨ t.readV 0xF#4 = 0#8) ∧
      (t.readV 0xF#4 = 1#8 ↔
        ∃ py px, spriteCovers s (s.readV x).toNat (s.readV y).toNat n.toNat py px ∧ s.pixel py px = true) ∧
      t.I = s.I ∧ t.stack = s.stack ∧ SameMemory s t ∧ TimersDecayed s t ∧ Completed s t

/-- Drawing the same sprite twice at the same position restores the framebuffer, and where the first draw completes,
the second sets VF to 1 exactly when the first set a pixel (41_display.md R114, derived there; source property S4).
The position is the same when the two coordinate registers are: left out is X = F or Y = F where the first draw
changes VF, since the second draw is then at another position. -/
def Obligations.DrawTwiceRestores : Prop :=
  ∀ (x y n : Nibble) (s t u : State), exec (.drw x y n) s = .next t → exec (.drw x y n) t = .next u →
    t.readV x = s.readV x → t.readV y = s.readV y →
    (∀ py px, py ≤ 31 → px ≤ 63 → u.pixel py px = s.pixel py px) ∧
    (s.halted = false → t.halted = false →
      (u.readV 0xF#4 = 1#8 ↔ ∃ py px, py ≤ 31 ∧ px ≤ 63 ∧ s.pixel py px = false ∧ t.pixel py px = true))

/-- Under FAULT, an instruction whose access goes above 4095 halts with OutOfBoundsAddress and is discarded whole: a
drawn row of DXYN, the third byte of FX33, the last byte of FX55 and FX65 (R111, R183 to R185, R99, R225; the policy
and the halt are the spec's own choices D1, D5). -/
def Obligations.OutOfBoundsHalts : Prop :=
  ∀ s : State, s.params.addrPolicy = .fault →
    (∀ x y n r, rowDrawn (s.readV y).toNat n.toNat r → 4095 < s.I.toNat + r →
      exec (.drw x y n) s = .next (halted s .outOfBoundsAddress (some (encode (.drw x y n))))) ∧
    (∀ x, 4095 < s.I.toNat + 2 →
      exec (.ldB x) s = .next (halted s .outOfBoundsAddress (some (encode (.ldB x))))) ∧
    (∀ x, 4095 < s.I.toNat + x.toNat →
      exec (.storeRegs x) s = .next (halted s .outOfBoundsAddress (some (encode (.storeRegs x)))) ∧
      exec (.loadRegs x) s = .next (halted s .outOfBoundsAddress (some (encode (.loadRegs x)))))

/-! ## Control transfer -/

/-- 1NNN: `pc` is NNN, at most 0xFFF, odd or even (R131). -/
def Obligations.Jump : Prop :=
  RowDecodes 0x1000 0xF000 (fun w => .jp (w.extractLsb' 0 12)) ∧
  ∀ (nnn : Addr) (s : State), ∃ t, exec (.jp nnn) s = .next t ∧ t.pc.toNat = nnn.toNat ∧ OnlyPc s t

/-- BNNN: `pc` is NNN plus V0, never another register, and is not masked (42_control_flow.md R137; the last is the
spec's own choice D27). -/
def Obligations.JumpPlusV0 : Prop :=
  ∀ (nnn : Addr) (s : State), ∃ t, exec (.jpV0 nnn) s = .next t ∧
    t.pc.toNat = nnn.toNat + (s.readV 0#4).toNat ∧ OnlyPc s t

/-- 2NNN on a stack that is not full pushes the advanced `pc` and jumps to NNN; on a full stack it halts with
StackOverflow (42_control_flow.md R132, 60_exceptions.md R224; the depth and the halt are the spec's own choices D3,
D5). -/
def Obligations.CallPushesReturnAddress : Prop :=
  ∀ (nnn : Addr) (s : State),
    (s.params.stackDepth ≠ some s.stack.length → ∃ t, exec (.call nnn) s = .next t ∧
      t.pc.toNat = nnn.toNat ∧ t.stack = advancedPc s.pc :: s.stack ∧ OnlyPcAndStack s t) ∧
    (s.params.stackDepth = some s.stack.length →
      exec (.call nnn) s = .next (halted s .stackOverflow (some (encode (.call nnn)))))

/-- 00EE pops the top of the stack into `pc`, exactly; on an empty stack it halts with StackUnderflow and the word
0x00EE (42_control_flow.md R130, 60_exceptions.md R223; the halt is the spec's own choice D4, D5). -/
def Obligations.ReturnPopsAddress : Prop :=
  ∀ s : State,
    (∀ v rest, s.stack = v :: rest → ∃ t, exec .ret s = .next t ∧ t.pc = v ∧ t.stack = rest ∧
      OnlyPcAndStack s t) ∧
    (s.stack = [] → exec .ret s = .next (halted s .stackUnderflow (some 0x00EE#16)))

/-- A call and the return at its target, run as two steps: `pc` is exactly the advanced address of the call, and the
stack and the registers are as before it (42_control_flow.md R132, source property S6). -/
def Obligations.CallThenReturn : Prop :=
  ∀ (nnn : Addr) (s : State), s.halted = false → s.loaded = true →
    s.params.stackDepth ≠ some s.stack.length → s.fetchWord = .ok (encode (.call nnn)) → nnn.toNat ≤ 4094 →
    s.peek nnn.toNat = 0x00#8 → s.peek (nnn.toNat + 1) = 0xEE#8 →
    ∃ u t, step s = .next u ∧ step u = .next t ∧ t.pc = advancedPc s.pc ∧ t.stack = s.stack ∧ SameRegisters s t ∧
      t.I = s.I

/-- 3XNN and 4XNN: 2 is added to the advanced `pc`, modulo 2^16, exactly when V[x] equals NN, or differs from it
(R133, R134). -/
def Obligations.SkipImmediate : Prop :=
  RowDecodes 0x3000 0xF000 (fun w => .seImm (w.extractLsb' 8 4) (w.extractLsb' 0 8)) ∧
  RowDecodes 0x4000 0xF000 (fun w => .sneImm (w.extractLsb' 8 4) (w.extractLsb' 0 8)) ∧
  ∀ (x : Nibble) (nn : Byte) (s : State),
    (∃ t, exec (.seImm x nn) s = .next t ∧ OnlyPc s t ∧
      t.pc.toNat = if s.readV x = nn then ((advancedPc s.pc).toNat + 2) % 65536 else (advancedPc s.pc).toNat) ∧
    (∃ t, exec (.sneImm x nn) s = .next t ∧ OnlyPc s t ∧
      t.pc.toNat = if s.readV x ≠ nn then ((advancedPc s.pc).toNat + 2) % 65536 else (advancedPc s.pc).toNat)

/-- 5XY0 and 9XY0: 2 is added to the advanced `pc` exactly when V[x] and V[y] are equal, or differ; the result is not
wrapped and is at most 4097 (42_control_flow.md R135, R136, R138; D28). -/
def Obligations.SkipRegister : Prop :=
  ∀ (x y : Nibble) (s : State),
    (∃ t, exec (.seReg x y) s = .next t ∧ OnlyPc s t ∧ t.pc.toNat ≤ 4097 ∧
      t.pc.toNat = (advancedPc s.pc).toNat + if s.readV x = s.readV y then 2 else 0) ∧
    (∃ t, exec (.sneReg x y) s = .next t ∧ OnlyPc s t ∧ t.pc.toNat ≤ 4097 ∧
      t.pc.toNat = (advancedPc s.pc).toNat + if s.readV x = s.readV y then 0 else 2)

/-- EX9E and EXA1 skip when the key is pressed, or not pressed; the key is X under NIBBLE and V[x] under REGISTER,
where an id above 15 is never pressed (45_keys_timers.md R200 to R202; the parameter is the spec's own choice D14,
and how `keys` reaches the model log entry 3). -/
def Obligations.KeySkips : Prop :=
  ∀ (x : Nibble) (s : State),
    let key := match s.params.keySelect with | .nibble => x.toNat | .register => (s.readV x).toNat
    (∃ t, exec (.skp x) s = .next t ∧ OnlyPc s t ∧ t.pc.toNat = (advancedPc s.pc).toNat +
      if key ≤ 15 ∧ s.input.keys.toNat / 2 ^ key % 2 = 1 then 2 else 0) ∧
    (∃ t, exec (.sknp x) s = .next t ∧ OnlyPc s t ∧ t.pc.toNat = (advancedPc s.pc).toNat +
      if key ≤ 15 ∧ s.input.keys.toNat / 2 ^ key % 2 = 1 then 0 else 2)

/-! ## The index register and memory -/

/-- ANNN: `I` is NNN zero-extended (R180). -/
def Obligations.SetIndex : Prop :=
  RowDecodes 0xA000 0xF000 (fun w => .ldI (w.extractLsb' 0 12)) ∧
  ∀ (nnn : Addr) (s : State), ∃ t, exec (.ldI nnn) s = .next t ∧ t.I.toNat = nnn.toNat ∧ OnlyI s t

/-- FX1E adds V[x] to `I` modulo 2^16 with no flag, and FX29 sets `I` to 0x50 plus 5 times V[x], unmasked
(44_index_memory.md R181, R182; the modulus, the absent flag and the absent mask are the spec's own choices D19, D11,
D20). -/
def Obligations.IndexArithmetic : Prop :=
  ∀ (x : Nibble) (s : State),
    (∃ t, exec (.addI x) s = .next t ∧ t.I.toNat = (s.I.toNat + (s.readV x).toNat) % 65536 ∧ OnlyI s t) ∧
    (∃ t, exec (.ldF x) s = .next t ∧ t.I.toNat = 0x50 + 5 * (s.readV x).toNat ∧ OnlyI s t)

/-- FX33, where its three addresses resolve: the bytes that `I`, `I` + 1 and `I` + 2 resolve to hold the hundreds,
tens and ones of V[x], every other byte reads as before, and `I` is unchanged (44_index_memory.md R183; the resolution
is the spec's own choice D1). -/
def Obligations.StoreDecimal : Prop :=
  ∀ (x : Nibble) (s : State), s.params.addrPolicy = .mask ∨ s.I.toNat + 2 ≤ 4095 →
    ∃ t, exec (.ldB x) s = .next t ∧
      (∀ a, resolve s.params s.I.toNat = .ok a → (t.peek a).toNat = (s.readV x).toNat / 100) ∧
      (∀ a, resolve s.params (s.I.toNat + 1) = .ok a → (t.peek a).toNat = (s.readV x).toNat / 10 % 10) ∧
      (∀ a, resolve s.params (s.I.toNat + 2) = .ok a → (t.peek a).toNat = (s.readV x).toNat % 10) ∧
      (∀ a, (∀ k, k ≤ 2 → resolve s.params (s.I.toNat + k) ≠ .ok a) → t.peek a = s.peek a) ∧
      t.I = s.I ∧ OnlyMemoryAndI s t

/-- FX55, where its addresses resolve: the byte that `I` + k resolves to holds V[k] for each k up to x, every other
byte reads as before, and `I` is advanced by x + 1 modulo 2^16 (44_index_memory.md R184; the resolution and the
modulus are the spec's own choices D1, D19). -/
def Obligations.StoreRegisters : Prop :=
  ∀ (x : Nibble) (s : State), s.params.addrPolicy = .mask ∨ s.I.toNat + x.toNat ≤ 4095 →
    ∃ t, exec (.storeRegs x) s = .next t ∧
      (∀ (k : Nibble) (a : Nat), k.toNat ≤ x.toNat → resolve s.params (s.I.toNat + k.toNat) = .ok a →
        t.peek a = s.readV k) ∧
      (∀ a, (∀ k, k ≤ x.toNat → resolve s.params (s.I.toNat + k) ≠ .ok a) → t.peek a = s.peek a) ∧
      t.I.toNat = (s.I.toNat + x.toNat + 1) % 65536 ∧ OnlyMemoryAndI s t

/-- FX65, where its addresses resolve: V[k] is the byte that `I` + k resolves to for each k up to x, the other
registers and every byte of memory are as before, and `I` is advanced by x + 1 modulo 2^16 (44_index_memory.md R185;
D1, D19). -/
def Obligations.LoadRegisters : Prop :=
  ∀ (x : Nibble) (s : State), s.params.addrPolicy = .mask ∨ s.I.toNat + x.toNat ≤ 4095 →
    ∃ t, exec (.loadRegs x) s = .next t ∧
      (∀ (k : Nibble) (a : Nat), k.toNat ≤ x.toNat → resolve s.params (s.I.toNat + k.toNat) = .ok a →
        t.readV k = s.peek a) ∧
      (∀ k : Nibble, x.toNat < k.toNat → t.readV k = s.readV k) ∧
      t.I.toNat = (s.I.toNat + x.toNat + 1) % 65536 ∧ t.stack = s.stack ∧ t.fb = s.fb ∧ SameMemory s t ∧
      TimersDecayed s t ∧ Completed s t

/-- `MemWrite(a, 1, v)` sets the byte `Resolve(a)`, any address of memory, and changes no other byte and no other
state; `MemRead` of an address that resolves to it then gives `v` (R52, R53). -/
def Obligations.WriteThenRead : Prop :=
  ∀ (s : State) (a r : Nat) (v : Byte), resolve s.params a = .ok r →
    s.memRead a = .ok (s.peek r) ∧
    ∃ t, s.memWrite a v = .ok t ∧ t.peek r = v ∧ (∀ b, b ≠ r → t.peek b = s.peek b) ∧
      (∀ b, resolve s.params b = .ok r → t.memRead b = .ok v) ∧ t = { s with mem := t.mem }

/-! ## Keys and timers -/

/-- FX07 writes to V[x] the value DT holds before this cycle's decay (R203). -/
def Obligations.ReadDelayTimer : Prop :=
  RowDecodes 0xF007 0xF0FF (fun w => .ldVxDT (w.extractLsb' 8 4)) ∧
  ∀ (x : Nibble) (s : State), ∃ t, exec (.ldVxDT x) s = .next t ∧
    (∀ r, t.readV r = if r = x then s.DT else s.readV r) ∧ OnlyRegisters s t

/-- FX15 and FX18 set DT, or ST, to V[x], and the same cycle decays it once: V[x] - 1 at the end of the cycle if
V[x] > 0, and 0 if V[x] = 0 under SATURATE; the other timer decays from its old value (R205, R206). -/
def Obligations.SetTimers : Prop :=
  RowDecodes 0xF015 0xF0FF (fun w => .ldDTVx (w.extractLsb' 8 4)) ∧
  RowDecodes 0xF018 0xF0FF (fun w => .ldSTVx (w.extractLsb' 8 4)) ∧
  ∀ (x : Nibble) (s : State),
    (∃ t, exec (.ldDTVx x) s = .next t ∧ (0 < (s.readV x).toNat → t.DT.toNat = (s.readV x).toNat - 1) ∧
      (s.readV x = 0#8 → s.params.timerDecay = .saturate → t.DT = 0#8) ∧
      t.ST = decayed s.params.timerDecay s.ST ∧ SameRegisters s t ∧ t.I = s.I ∧ t.stack = s.stack ∧
      t.fb = s.fb ∧ SameMemory s t ∧ Completed s t) ∧
    (∃ t, exec (.ldSTVx x) s = .next t ∧ (0 < (s.readV x).toNat → t.ST.toNat = (s.readV x).toNat - 1) ∧
      (s.readV x = 0#8 → s.params.timerDecay = .saturate → t.ST = 0#8) ∧
      t.DT = decayed s.params.timerDecay s.DT ∧ SameRegisters s t ∧ t.I = s.I ∧ t.stack = s.stack ∧
      t.fb = s.fb ∧ SameMemory s t ∧ Completed s t)

/-- FX0A with no key pressed writes only `pc`, back to the instruction's own address; with a key pressed it writes a
pressed key to V[x], the only one where one key is pressed, and `pc` stays advanced. The timers decay either way
(45_keys_timers.md R204, 60_exceptions.md R234; the retry address and which key is first are D8, D15). -/
def Obligations.WaitForKey : Prop :=
  ∀ (x : Nibble) (s : State),
    (s.input.keys = 0#16 → ∃ t, exec (.ldVxK x) s = .next t ∧ t.pc = s.pc ∧ OnlyPc s t) ∧
    (s.input.keys ≠ 0#16 → ∃ t, exec (.ldVxK x) s = .next t ∧ t.pc = advancedPc s.pc ∧ OnlyRegisters s t ∧
      (∀ r, r ≠ x → t.readV r = s.readV r) ∧ (t.readV x).toNat ≤ 15 ∧
      s.input.keys.getLsbD (t.readV x).toNat = true)

/-- `FIRST_KEY` is none exactly when no key is pressed and otherwise a pressed key; and the model's choice covers
every function R234 admits (60_exceptions.md R234; the parameter is the spec's own choice D15, its form log
entry 4). -/
def Obligations.FirstKeyIsAnyAdmissible : Prop :=
  Admissible firstKey ∧ ∀ f, Admissible f → ∃ pick, ∀ keys, firstKeyBy pick keys = f keys

/-- Between cycles the core requests sound exactly while ST is above 0, and its outputs are the framebuffer, the
timers, that request and the halt with its record (45_keys_timers.md R207, 60_exceptions.md R233; the form of the
interface is the spec's own choice D24). -/
def Obligations.OutputsBetweenCycles : Prop :=
  ∀ s : State, (s.outputs.soundRequest = true ↔ 0 < s.ST.toNat) ∧
    (∀ y x, y ≤ 31 → x ≤ 63 → pixelOf s.outputs.fb y x = s.pixel y x) ∧ s.outputs.DT = s.DT ∧ s.outputs.ST = s.ST ∧
    s.outputs.halted = s.halted ∧ s.outputs.fault = s.fault

/-! ## Reset and load -/

/-- The state after reset, whatever the parameters: every register, timer and pixel 0, the stack empty, memory 0 but
for the font at 0x50 to 0x9F, not halted and no fault (10_state.md R33; the last two are the spec's own choice D5). -/
def Obligations.ResetValues : Prop :=
  ∀ p : Params, let s := State.resetWith p
    (∀ r, s.readV r = 0#8) ∧ s.I = 0#16 ∧ s.pc = 0#16 ∧ s.stack = [] ∧ s.DT = 0#8 ∧ s.ST = 0#8 ∧
    (∀ y x, y ≤ 31 → x ≤ 63 → s.pixel y x = false) ∧ s.halted = false ∧ s.fault = none ∧ s.params = p ∧
    (∀ k (h : k < 80), s.peek (0x50 + k) = p.font[k]) ∧
    ∀ a, a < 0x50 ∨ 0x9F < a → s.peek a = 0#8

/-- A load of at most 3584 bytes puts the image at 0x200, changes no other byte, sets `pc` to 0x200 and lets cycles
run; a longer image fails with ProgramTooLarge (70_reset_and_hazards.md R252, 60_exceptions.md R226; D22, D29). -/
def Obligations.LoadPlacesImage : Prop :=
  ∀ (s : State) (image : List Byte),
    (image.length ≤ 3584 → ∃ t, s.load image = .ok t ∧ t.pc = 0x200#16 ∧ t.loaded = true ∧
      (∀ k (h : k < image.length), t.peek (0x200 + k) = image[k]) ∧
      (∀ a, a < 0x200 ∨ 0x200 + image.length ≤ a → t.peek a = s.peek a) ∧
      t = { s with mem := t.mem, pc := 0x200#16, loaded := true }) ∧
    (3584 < image.length → s.load image = .error .programTooLarge)
end

