-- ==== Sys2Proof/Laws/State.lean ====
section
/-! SUPPORT. One lemma per field per named update of the state, each true by rfl, so that no proof unfolds a record
update. The readers `readV`, `peek`, `pixel` and `input` have theirs too. -/

namespace Sys2Proof.Machine

variable (s : State)

/-! ### writeV -/

@[simp] theorem State.writeV_V (x : Nibble) (b : Byte) : (s.writeV x b).V = s.V.set x.toNat b x.isLt := rfl
@[simp] theorem State.writeV_I (x : Nibble) (b : Byte) : (s.writeV x b).I = s.I := rfl
@[simp] theorem State.writeV_pc (x : Nibble) (b : Byte) : (s.writeV x b).pc = s.pc := rfl
@[simp] theorem State.writeV_stack (x : Nibble) (b : Byte) : (s.writeV x b).stack = s.stack := rfl
@[simp] theorem State.writeV_DT (x : Nibble) (b : Byte) : (s.writeV x b).DT = s.DT := rfl
@[simp] theorem State.writeV_ST (x : Nibble) (b : Byte) : (s.writeV x b).ST = s.ST := rfl
@[simp] theorem State.writeV_mem (x : Nibble) (b : Byte) : (s.writeV x b).mem = s.mem := rfl
@[simp] theorem State.writeV_fb (x : Nibble) (b : Byte) : (s.writeV x b).fb = s.fb := rfl
@[simp] theorem State.writeV_halted (x : Nibble) (b : Byte) : (s.writeV x b).halted = s.halted := rfl
@[simp] theorem State.writeV_fault (x : Nibble) (b : Byte) : (s.writeV x b).fault = s.fault := rfl
@[simp] theorem State.writeV_params (x : Nibble) (b : Byte) : (s.writeV x b).params = s.params := rfl
@[simp] theorem State.writeV_loaded (x : Nibble) (b : Byte) : (s.writeV x b).loaded = s.loaded := rfl
@[simp] theorem State.writeV_inputs (x : Nibble) (b : Byte) : (s.writeV x b).inputs = s.inputs := rfl
@[simp] theorem State.writeV_inputNo (x : Nibble) (b : Byte) : (s.writeV x b).inputNo = s.inputNo := rfl
@[simp] theorem State.writeV_peek (x : Nibble) (b : Byte) (c : Nat) : (s.writeV x b).peek c = s.peek c := rfl
@[simp] theorem State.writeV_pixel (x : Nibble) (b : Byte) (y z : Nat) : (s.writeV x b).pixel y z = s.pixel y z := rfl
@[simp] theorem State.writeV_input (x : Nibble) (b : Byte) : (s.writeV x b).input = s.input := rfl

/-! ### setI -/

@[simp] theorem State.setI_V (a : Word) : (s.setI a).V = s.V := rfl
@[simp] theorem State.setI_I (a : Word) : (s.setI a).I = a := rfl
@[simp] theorem State.setI_pc (a : Word) : (s.setI a).pc = s.pc := rfl
@[simp] theorem State.setI_stack (a : Word) : (s.setI a).stack = s.stack := rfl
@[simp] theorem State.setI_DT (a : Word) : (s.setI a).DT = s.DT := rfl
@[simp] theorem State.setI_ST (a : Word) : (s.setI a).ST = s.ST := rfl
@[simp] theorem State.setI_mem (a : Word) : (s.setI a).mem = s.mem := rfl
@[simp] theorem State.setI_fb (a : Word) : (s.setI a).fb = s.fb := rfl
@[simp] theorem State.setI_halted (a : Word) : (s.setI a).halted = s.halted := rfl
@[simp] theorem State.setI_fault (a : Word) : (s.setI a).fault = s.fault := rfl
@[simp] theorem State.setI_params (a : Word) : (s.setI a).params = s.params := rfl
@[simp] theorem State.setI_loaded (a : Word) : (s.setI a).loaded = s.loaded := rfl
@[simp] theorem State.setI_inputs (a : Word) : (s.setI a).inputs = s.inputs := rfl
@[simp] theorem State.setI_inputNo (a : Word) : (s.setI a).inputNo = s.inputNo := rfl
@[simp] theorem State.setI_readV (a : Word) (r : Nibble) : (s.setI a).readV r = s.readV r := rfl
@[simp] theorem State.setI_peek (a : Word) (c : Nat) : (s.setI a).peek c = s.peek c := rfl
@[simp] theorem State.setI_pixel (a : Word) (y z : Nat) : (s.setI a).pixel y z = s.pixel y z := rfl
@[simp] theorem State.setI_input (a : Word) : (s.setI a).input = s.input := rfl
@[simp] theorem State.setI_keyId (a : Word) (r : Nibble) : (s.setI a).keyId r = s.keyId r := rfl

/-! ### setPc -/

@[simp] theorem State.setPc_V (a : Word) : (s.setPc a).V = s.V := rfl
@[simp] theorem State.setPc_I (a : Word) : (s.setPc a).I = s.I := rfl
@[simp] theorem State.setPc_pc (a : Word) : (s.setPc a).pc = a := rfl
@[simp] theorem State.setPc_stack (a : Word) : (s.setPc a).stack = s.stack := rfl
@[simp] theorem State.setPc_DT (a : Word) : (s.setPc a).DT = s.DT := rfl
@[simp] theorem State.setPc_ST (a : Word) : (s.setPc a).ST = s.ST := rfl
@[simp] theorem State.setPc_mem (a : Word) : (s.setPc a).mem = s.mem := rfl
@[simp] theorem State.setPc_fb (a : Word) : (s.setPc a).fb = s.fb := rfl
@[simp] theorem State.setPc_halted (a : Word) : (s.setPc a).halted = s.halted := rfl
@[simp] theorem State.setPc_fault (a : Word) : (s.setPc a).fault = s.fault := rfl
@[simp] theorem State.setPc_params (a : Word) : (s.setPc a).params = s.params := rfl
@[simp] theorem State.setPc_loaded (a : Word) : (s.setPc a).loaded = s.loaded := rfl
@[simp] theorem State.setPc_inputs (a : Word) : (s.setPc a).inputs = s.inputs := rfl
@[simp] theorem State.setPc_inputNo (a : Word) : (s.setPc a).inputNo = s.inputNo := rfl
@[simp] theorem State.setPc_readV (a : Word) (r : Nibble) : (s.setPc a).readV r = s.readV r := rfl
@[simp] theorem State.setPc_peek (a : Word) (c : Nat) : (s.setPc a).peek c = s.peek c := rfl
@[simp] theorem State.setPc_pixel (a : Word) (y z : Nat) : (s.setPc a).pixel y z = s.pixel y z := rfl
@[simp] theorem State.setPc_input (a : Word) : (s.setPc a).input = s.input := rfl
@[simp] theorem State.setPc_keyId (a : Word) (r : Nibble) : (s.setPc a).keyId r = s.keyId r := rfl

/-! ### setDT -/

@[simp] theorem State.setDT_V (b : Byte) : (s.setDT b).V = s.V := rfl
@[simp] theorem State.setDT_I (b : Byte) : (s.setDT b).I = s.I := rfl
@[simp] theorem State.setDT_pc (b : Byte) : (s.setDT b).pc = s.pc := rfl
@[simp] theorem State.setDT_stack (b : Byte) : (s.setDT b).stack = s.stack := rfl
@[simp] theorem State.setDT_DT (b : Byte) : (s.setDT b).DT = b := rfl
@[simp] theorem State.setDT_ST (b : Byte) : (s.setDT b).ST = s.ST := rfl
@[simp] theorem State.setDT_mem (b : Byte) : (s.setDT b).mem = s.mem := rfl
@[simp] theorem State.setDT_fb (b : Byte) : (s.setDT b).fb = s.fb := rfl
@[simp] theorem State.setDT_halted (b : Byte) : (s.setDT b).halted = s.halted := rfl
@[simp] theorem State.setDT_fault (b : Byte) : (s.setDT b).fault = s.fault := rfl
@[simp] theorem State.setDT_params (b : Byte) : (s.setDT b).params = s.params := rfl
@[simp] theorem State.setDT_loaded (b : Byte) : (s.setDT b).loaded = s.loaded := rfl
@[simp] theorem State.setDT_inputs (b : Byte) : (s.setDT b).inputs = s.inputs := rfl
@[simp] theorem State.setDT_inputNo (b : Byte) : (s.setDT b).inputNo = s.inputNo := rfl
@[simp] theorem State.setDT_readV (b : Byte) (r : Nibble) : (s.setDT b).readV r = s.readV r := rfl
@[simp] theorem State.setDT_peek (b : Byte) (c : Nat) : (s.setDT b).peek c = s.peek c := rfl
@[simp] theorem State.setDT_pixel (b : Byte) (y z : Nat) : (s.setDT b).pixel y z = s.pixel y z := rfl
@[simp] theorem State.setDT_input (b : Byte) : (s.setDT b).input = s.input := rfl
@[simp] theorem State.setDT_keyId (b : Byte) (r : Nibble) : (s.setDT b).keyId r = s.keyId r := rfl

/-! ### setST -/

@[simp] theorem State.setST_V (b : Byte) : (s.setST b).V = s.V := rfl
@[simp] theorem State.setST_I (b : Byte) : (s.setST b).I = s.I := rfl
@[simp] theorem State.setST_pc (b : Byte) : (s.setST b).pc = s.pc := rfl
@[simp] theorem State.setST_stack (b : Byte) : (s.setST b).stack = s.stack := rfl
@[simp] theorem State.setST_DT (b : Byte) : (s.setST b).DT = s.DT := rfl
@[simp] theorem State.setST_ST (b : Byte) : (s.setST b).ST = b := rfl
@[simp] theorem State.setST_mem (b : Byte) : (s.setST b).mem = s.mem := rfl
@[simp] theorem State.setST_fb (b : Byte) : (s.setST b).fb = s.fb := rfl
@[simp] theorem State.setST_halted (b : Byte) : (s.setST b).halted = s.halted := rfl
@[simp] theorem State.setST_fault (b : Byte) : (s.setST b).fault = s.fault := rfl
@[simp] theorem State.setST_params (b : Byte) : (s.setST b).params = s.params := rfl
@[simp] theorem State.setST_loaded (b : Byte) : (s.setST b).loaded = s.loaded := rfl
@[simp] theorem State.setST_inputs (b : Byte) : (s.setST b).inputs = s.inputs := rfl
@[simp] theorem State.setST_inputNo (b : Byte) : (s.setST b).inputNo = s.inputNo := rfl
@[simp] theorem State.setST_readV (b : Byte) (r : Nibble) : (s.setST b).readV r = s.readV r := rfl
@[simp] theorem State.setST_peek (b : Byte) (c : Nat) : (s.setST b).peek c = s.peek c := rfl
@[simp] theorem State.setST_pixel (b : Byte) (y z : Nat) : (s.setST b).pixel y z = s.pixel y z := rfl
@[simp] theorem State.setST_input (b : Byte) : (s.setST b).input = s.input := rfl
@[simp] theorem State.setST_keyId (b : Byte) (r : Nibble) : (s.setST b).keyId r = s.keyId r := rfl

/-! ### setStack -/

@[simp] theorem State.setStack_V (l : List Word) : (s.setStack l).V = s.V := rfl
@[simp] theorem State.setStack_I (l : List Word) : (s.setStack l).I = s.I := rfl
@[simp] theorem State.setStack_pc (l : List Word) : (s.setStack l).pc = s.pc := rfl
@[simp] theorem State.setStack_stack (l : List Word) : (s.setStack l).stack = l := rfl
@[simp] theorem State.setStack_DT (l : List Word) : (s.setStack l).DT = s.DT := rfl
@[simp] theorem State.setStack_ST (l : List Word) : (s.setStack l).ST = s.ST := rfl
@[simp] theorem State.setStack_mem (l : List Word) : (s.setStack l).mem = s.mem := rfl
@[simp] theorem State.setStack_fb (l : List Word) : (s.setStack l).fb = s.fb := rfl
@[simp] theorem State.setStack_halted (l : List Word) : (s.setStack l).halted = s.halted := rfl
@[simp] theorem State.setStack_fault (l : List Word) : (s.setStack l).fault = s.fault := rfl
@[simp] theorem State.setStack_params (l : List Word) : (s.setStack l).params = s.params := rfl
@[simp] theorem State.setStack_loaded (l : List Word) : (s.setStack l).loaded = s.loaded := rfl
@[simp] theorem State.setStack_inputs (l : List Word) : (s.setStack l).inputs = s.inputs := rfl
@[simp] theorem State.setStack_inputNo (l : List Word) : (s.setStack l).inputNo = s.inputNo := rfl
@[simp] theorem State.setStack_readV (l : List Word) (r : Nibble) : (s.setStack l).readV r = s.readV r := rfl
@[simp] theorem State.setStack_peek (l : List Word) (c : Nat) : (s.setStack l).peek c = s.peek c := rfl
@[simp] theorem State.setStack_pixel (l : List Word) (y z : Nat) : (s.setStack l).pixel y z = s.pixel y z := rfl
@[simp] theorem State.setStack_input (l : List Word) : (s.setStack l).input = s.input := rfl
@[simp] theorem State.setStack_keyId (l : List Word) (r : Nibble) : (s.setStack l).keyId r = s.keyId r := rfl

/-! ### setFb -/

@[simp] theorem State.setFb_V (d : BitVec 2048) : (s.setFb d).V = s.V := rfl
@[simp] theorem State.setFb_I (d : BitVec 2048) : (s.setFb d).I = s.I := rfl
@[simp] theorem State.setFb_pc (d : BitVec 2048) : (s.setFb d).pc = s.pc := rfl
@[simp] theorem State.setFb_stack (d : BitVec 2048) : (s.setFb d).stack = s.stack := rfl
@[simp] theorem State.setFb_DT (d : BitVec 2048) : (s.setFb d).DT = s.DT := rfl
@[simp] theorem State.setFb_ST (d : BitVec 2048) : (s.setFb d).ST = s.ST := rfl
@[simp] theorem State.setFb_mem (d : BitVec 2048) : (s.setFb d).mem = s.mem := rfl
@[simp] theorem State.setFb_fb (d : BitVec 2048) : (s.setFb d).fb = d := rfl
@[simp] theorem State.setFb_halted (d : BitVec 2048) : (s.setFb d).halted = s.halted := rfl
@[simp] theorem State.setFb_fault (d : BitVec 2048) : (s.setFb d).fault = s.fault := rfl
@[simp] theorem State.setFb_params (d : BitVec 2048) : (s.setFb d).params = s.params := rfl
@[simp] theorem State.setFb_loaded (d : BitVec 2048) : (s.setFb d).loaded = s.loaded := rfl
@[simp] theorem State.setFb_inputs (d : BitVec 2048) : (s.setFb d).inputs = s.inputs := rfl
@[simp] theorem State.setFb_inputNo (d : BitVec 2048) : (s.setFb d).inputNo = s.inputNo := rfl
@[simp] theorem State.setFb_readV (d : BitVec 2048) (r : Nibble) : (s.setFb d).readV r = s.readV r := rfl
@[simp] theorem State.setFb_peek (d : BitVec 2048) (c : Nat) : (s.setFb d).peek c = s.peek c := rfl
@[simp] theorem State.setFb_input (d : BitVec 2048) : (s.setFb d).input = s.input := rfl
@[simp] theorem State.setFb_keyId (d : BitVec 2048) (r : Nibble) : (s.setFb d).keyId r = s.keyId r := rfl

/-! ### poke -/

@[simp] theorem State.poke_V (a : Nat) (v : Byte) : (s.poke a v).V = s.V := rfl
@[simp] theorem State.poke_I (a : Nat) (v : Byte) : (s.poke a v).I = s.I := rfl
@[simp] theorem State.poke_pc (a : Nat) (v : Byte) : (s.poke a v).pc = s.pc := rfl
@[simp] theorem State.poke_stack (a : Nat) (v : Byte) : (s.poke a v).stack = s.stack := rfl
@[simp] theorem State.poke_DT (a : Nat) (v : Byte) : (s.poke a v).DT = s.DT := rfl
@[simp] theorem State.poke_ST (a : Nat) (v : Byte) : (s.poke a v).ST = s.ST := rfl
@[simp] theorem State.poke_mem (a : Nat) (v : Byte) : (s.poke a v).mem = Memory.write s.params.font s.mem a v := rfl
@[simp] theorem State.poke_fb (a : Nat) (v : Byte) : (s.poke a v).fb = s.fb := rfl
@[simp] theorem State.poke_halted (a : Nat) (v : Byte) : (s.poke a v).halted = s.halted := rfl
@[simp] theorem State.poke_fault (a : Nat) (v : Byte) : (s.poke a v).fault = s.fault := rfl
@[simp] theorem State.poke_params (a : Nat) (v : Byte) : (s.poke a v).params = s.params := rfl
@[simp] theorem State.poke_loaded (a : Nat) (v : Byte) : (s.poke a v).loaded = s.loaded := rfl
@[simp] theorem State.poke_inputs (a : Nat) (v : Byte) : (s.poke a v).inputs = s.inputs := rfl
@[simp] theorem State.poke_inputNo (a : Nat) (v : Byte) : (s.poke a v).inputNo = s.inputNo := rfl
@[simp] theorem State.poke_readV (a : Nat) (v : Byte) (r : Nibble) : (s.poke a v).readV r = s.readV r := rfl
@[simp] theorem State.poke_pixel (a : Nat) (v : Byte) (y z : Nat) : (s.poke a v).pixel y z = s.pixel y z := rfl
@[simp] theorem State.poke_input (a : Nat) (v : Byte) : (s.poke a v).input = s.input := rfl
@[simp] theorem State.poke_keyId (a : Nat) (v : Byte) (r : Nibble) : (s.poke a v).keyId r = s.keyId r := rfl

/-! ### takeHalt -/

@[simp] theorem State.takeHalt_V (k : HaltKind) (w : Option Word) : (s.takeHalt k w).V = s.V := rfl
@[simp] theorem State.takeHalt_I (k : HaltKind) (w : Option Word) : (s.takeHalt k w).I = s.I := rfl
@[simp] theorem State.takeHalt_pc (k : HaltKind) (w : Option Word) : (s.takeHalt k w).pc = s.pc := rfl
@[simp] theorem State.takeHalt_stack (k : HaltKind) (w : Option Word) : (s.takeHalt k w).stack = s.stack := rfl
@[simp] theorem State.takeHalt_DT (k : HaltKind) (w : Option Word) : (s.takeHalt k w).DT = s.DT := rfl
@[simp] theorem State.takeHalt_ST (k : HaltKind) (w : Option Word) : (s.takeHalt k w).ST = s.ST := rfl
@[simp] theorem State.takeHalt_mem (k : HaltKind) (w : Option Word) : (s.takeHalt k w).mem = s.mem := rfl
@[simp] theorem State.takeHalt_fb (k : HaltKind) (w : Option Word) : (s.takeHalt k w).fb = s.fb := rfl
@[simp] theorem State.takeHalt_halted (k : HaltKind) (w : Option Word) : (s.takeHalt k w).halted = true := rfl
@[simp] theorem State.takeHalt_fault (k : HaltKind) (w : Option Word) : (s.takeHalt k w).fault = some { kind := k, pc := s.pc, word := w } := rfl
@[simp] theorem State.takeHalt_params (k : HaltKind) (w : Option Word) : (s.takeHalt k w).params = s.params := rfl
@[simp] theorem State.takeHalt_loaded (k : HaltKind) (w : Option Word) : (s.takeHalt k w).loaded = s.loaded := rfl
@[simp] theorem State.takeHalt_inputs (k : HaltKind) (w : Option Word) : (s.takeHalt k w).inputs = s.inputs := rfl
@[simp] theorem State.takeHalt_inputNo (k : HaltKind) (w : Option Word) : (s.takeHalt k w).inputNo = s.inputNo := rfl
@[simp] theorem State.takeHalt_readV (k : HaltKind) (w : Option Word) (r : Nibble) : (s.takeHalt k w).readV r = s.readV r := rfl
@[simp] theorem State.takeHalt_peek (k : HaltKind) (w : Option Word) (c : Nat) : (s.takeHalt k w).peek c = s.peek c := rfl
@[simp] theorem State.takeHalt_pixel (k : HaltKind) (w : Option Word) (y z : Nat) : (s.takeHalt k w).pixel y z = s.pixel y z := rfl
@[simp] theorem State.takeHalt_input (k : HaltKind) (w : Option Word) : (s.takeHalt k w).input = s.input := rfl
@[simp] theorem State.takeHalt_keyId (k : HaltKind) (w : Option Word) (r : Nibble) : (s.takeHalt k w).keyId r = s.keyId r := rfl

/-! ### advance -/

@[simp] theorem State.advance_V : (s.advance).V = s.V := rfl
@[simp] theorem State.advance_I : (s.advance).I = s.I := rfl
@[simp] theorem State.advance_pc : (s.advance).pc = advancedPc s.pc := rfl
@[simp] theorem State.advance_stack : (s.advance).stack = s.stack := rfl
@[simp] theorem State.advance_DT : (s.advance).DT = s.DT := rfl
@[simp] theorem State.advance_ST : (s.advance).ST = s.ST := rfl
@[simp] theorem State.advance_mem : (s.advance).mem = s.mem := rfl
@[simp] theorem State.advance_fb : (s.advance).fb = s.fb := rfl
@[simp] theorem State.advance_halted : (s.advance).halted = s.halted := rfl
@[simp] theorem State.advance_fault : (s.advance).fault = s.fault := rfl
@[simp] theorem State.advance_params : (s.advance).params = s.params := rfl
@[simp] theorem State.advance_loaded : (s.advance).loaded = s.loaded := rfl
@[simp] theorem State.advance_inputs : (s.advance).inputs = s.inputs := rfl
@[simp] theorem State.advance_inputNo : (s.advance).inputNo = s.inputNo := rfl
@[simp] theorem State.advance_readV (r : Nibble) : (s.advance).readV r = s.readV r := rfl
@[simp] theorem State.advance_peek (c : Nat) : (s.advance).peek c = s.peek c := rfl
@[simp] theorem State.advance_pixel (y z : Nat) : (s.advance).pixel y z = s.pixel y z := rfl
@[simp] theorem State.advance_input : (s.advance).input = s.input := rfl
@[simp] theorem State.advance_keyId (r : Nibble) : (s.advance).keyId r = s.keyId r := rfl

/-! ### endCycle -/

@[simp] theorem State.endCycle_V : (s.endCycle).V = s.V := rfl
@[simp] theorem State.endCycle_I : (s.endCycle).I = s.I := rfl
@[simp] theorem State.endCycle_pc : (s.endCycle).pc = s.pc := rfl
@[simp] theorem State.endCycle_stack : (s.endCycle).stack = s.stack := rfl
@[simp] theorem State.endCycle_DT : (s.endCycle).DT = decayed s.params.timerDecay s.DT := rfl
@[simp] theorem State.endCycle_ST : (s.endCycle).ST = decayed s.params.timerDecay s.ST := rfl
@[simp] theorem State.endCycle_mem : (s.endCycle).mem = s.mem := rfl
@[simp] theorem State.endCycle_fb : (s.endCycle).fb = s.fb := rfl
@[simp] theorem State.endCycle_halted : (s.endCycle).halted = s.halted := rfl
@[simp] theorem State.endCycle_fault : (s.endCycle).fault = s.fault := rfl
@[simp] theorem State.endCycle_params : (s.endCycle).params = s.params := rfl
@[simp] theorem State.endCycle_loaded : (s.endCycle).loaded = s.loaded := rfl
@[simp] theorem State.endCycle_inputs : (s.endCycle).inputs = s.inputs.tail := rfl
@[simp] theorem State.endCycle_inputNo : (s.endCycle).inputNo = s.inputNo + 1 := rfl
@[simp] theorem State.endCycle_readV (r : Nibble) : (s.endCycle).readV r = s.readV r := rfl
@[simp] theorem State.endCycle_peek (c : Nat) : (s.endCycle).peek c = s.peek c := rfl
@[simp] theorem State.endCycle_pixel (y z : Nat) : (s.endCycle).pixel y z = s.pixel y z := rfl
@[simp] theorem State.endCycle_keyId (r : Nibble) : (s.endCycle).keyId r = s.keyId r := rfl

/-! ### The reads of the registers after a write -/

@[simp] theorem State.readV_writeV (x r : Nibble) (b : Byte) :
    (s.writeV x b).readV r = if r = x then b else s.readV r := by
  simp only [State.readV, State.writeV, Vector.getElem_set, BitVec.toNat_inj]
  exact if_congr eq_comm rfl rfl

@[simp] theorem State.pixel_setFb (d : BitVec 2048) (y x : Nat) : (s.setFb d).pixel y x = pixelOf d y x := rfl

end Sys2Proof.Machine
end

