-- ==== Sys2Proof/Laws/Memory.lean ====
section
/-! SUPPORT. Memory: what a read gives after a write, and that a write keeps the canonical form. -/

namespace Sys2Proof.Machine

theorem Memory.mem_erase {m : Memory} {a : Nat} {c : Host.Cell} :
    c ∈ Memory.erase m a ↔ c ∈ m ∧ c.1 ≠ a := by
  induction m with
  | nil => simp [Memory.erase]
  | cons d rest ih =>
    obtain ⟨b, w⟩ := d
    by_cases h : b = a
    · simp only [Memory.erase, h, if_true, ih, List.mem_cons]
      exact ⟨fun ⟨h1, h2⟩ => ⟨.inr h1, h2⟩, fun ⟨h1, h2⟩ => ⟨h1.resolve_left fun h3 => h2 (by rw [h3]), h2⟩⟩
    · simp only [Memory.erase, h, if_false, List.mem_cons, ih]
      exact ⟨fun h1 => h1.elim (fun h2 => ⟨.inl h2, by rw [h2]; exact h⟩) (fun h2 => ⟨.inr h2.1, h2.2⟩),
        fun ⟨h1, h2⟩ => h1.imp_right fun h3 => ⟨h3, h2⟩⟩

theorem Memory.mem_insert {m : Memory} {a : Nat} {v : Byte} {c : Host.Cell} :
    c ∈ Memory.insert m a v ↔ c = (a, v) ∨ c ∈ m := by
  induction m with
  | nil => simp [Memory.insert]
  | cons d rest ih =>
    obtain ⟨b, w⟩ := d
    by_cases h : a < b
    · simp [Memory.insert, h]
    · simp only [Memory.insert, h, if_false, List.mem_cons, ih]
      exact or_left_comm

theorem Memory.read_erase (font : Font) (m : Memory) (a b : Nat) :
    Memory.read font (Memory.erase m a) b = if b = a then resetByte font a else Memory.read font m b := by
  induction m with
  | nil => by_cases h : b = a <;> simp [Memory.erase, Memory.read, h]
  | cons d rest ih =>
    obtain ⟨c, w⟩ := d
    by_cases h : c = a <;> by_cases h2 : b = a <;> by_cases h3 : c = b <;> simp_all [Memory.erase, Memory.read]

theorem Memory.read_insert (font : Font) (m : Memory) (a b : Nat) (v : Byte) (h : ∀ c ∈ m, c.1 ≠ a) :
    Memory.read font (Memory.insert m a v) b = if b = a then v else Memory.read font m b := by
  induction m with
  | nil => by_cases h2 : b = a <;> simp [Memory.insert, Memory.read, h2, eq_comm (a := a)]
  | cons d rest ih =>
    obtain ⟨c, w⟩ := d
    have hc : c ≠ a := h (c, w) (List.mem_cons_self ..)
    have hr := ih fun e he => h e (List.mem_cons_of_mem _ he)
    by_cases h1 : a < c
    · by_cases h2 : b = a <;> simp [Memory.insert, h1, Memory.read, h2, eq_comm (a := a)]
    · simp only [Memory.insert, h1, if_false, Memory.read, hr]
      by_cases h3 : c = b
      · simp [h3, h3 ▸ hc]
      · simp [h3]

/-- A write gives the written byte at its address and leaves every other address alone. -/
theorem Memory.read_write (font : Font) (m : Memory) (a b : Nat) (v : Byte) :
    Memory.read font (Memory.write font m a v) b = if b = a then v else Memory.read font m b := by
  unfold Memory.write
  split
  · next h => rw [Memory.read_erase, h]
  · rw [Memory.read_insert _ _ _ _ _ fun c hc => (Memory.mem_erase.1 hc).2, Memory.read_erase]
    by_cases h : b = a <;> simp [h]

theorem Memory.rising_iff (m : Memory) : m.rising = true ↔ m.Pairwise fun c d => c.1 < d.1 := by
  induction m with
  | nil => simp [Memory.rising]
  | cons c rest ih =>
    cases rest with
    | nil => simp [Memory.rising]
    | cons d rest =>
      rw [Memory.rising, Bool.and_eq_true, ih, List.pairwise_cons (a := c), decide_eq_true_iff]
      refine ⟨fun ⟨h1, h2⟩ => ⟨fun e he => ?_, h2⟩, fun ⟨h1, h2⟩ => ⟨h1 d (List.mem_cons_self ..), h2⟩⟩
      rcases List.mem_cons.1 he with h3 | h3
      · rw [h3]; exact h1
      · exact Nat.lt_trans h1 ((List.pairwise_cons.1 h2).1 e h3)

theorem Memory.rising_erase {m : Memory} (a : Nat) (h : m.rising = true) : (Memory.erase m a).rising = true := by
  rw [Memory.rising_iff] at *
  induction m with
  | nil => exact List.Pairwise.nil
  | cons d rest ih =>
    obtain ⟨b, w⟩ := d
    have h2 := List.pairwise_cons.1 h
    unfold Memory.erase
    split
    · exact ih h2.2
    · exact List.pairwise_cons.2 ⟨fun e he => h2.1 e (Memory.mem_erase.1 he).1, ih h2.2⟩

theorem Memory.rising_insert {m : Memory} (a : Nat) (v : Byte) (h : m.rising = true) (hn : ∀ c ∈ m, c.1 ≠ a) :
    (Memory.insert m a v).rising = true := by
  rw [Memory.rising_iff] at *
  induction m with
  | nil => simp [Memory.insert]
  | cons d rest ih =>
    obtain ⟨b, w⟩ := d
    have h2 := List.pairwise_cons.1 h
    have hb : b ≠ a := hn (b, w) (List.mem_cons_self ..)
    unfold Memory.insert
    split
    · next hlt =>
      refine List.pairwise_cons.2 ⟨fun e he => ?_, h⟩
      rcases List.mem_cons.1 he with h3 | h3
      · rw [h3]; exact hlt
      · exact Nat.lt_trans hlt (h2.1 e h3)
    · next hge =>
      refine List.pairwise_cons.2 ⟨fun e he => ?_, ih h2.2 fun c hc => hn c (List.mem_cons_of_mem _ hc)⟩
      rcases Memory.mem_insert.1 he with h3 | h3
      · rw [h3]; show b < a; omega
      · exact h2.1 e h3

theorem Memory.wf_iff (font : Font) (m : Memory) :
    m.wf font = true ↔ m.rising = true ∧ ∀ c ∈ m, c.1 < memSize ∧ c.2 ≠ resetByte font c.1 := by
  simp [Memory.wf]

/-- A write below 4096 keeps the canonical form. -/
theorem Memory.wf_write {font : Font} {m : Memory} {a : Nat} (v : Byte) (h : m.wf font = true) (ha : a < memSize) :
    (Memory.write font m a v).wf font = true := by
  rw [Memory.wf_iff] at *
  unfold Memory.write
  split
  · exact ⟨Memory.rising_erase a h.1, fun c hc => h.2 c (Memory.mem_erase.1 hc).1⟩
  · next hv =>
    refine ⟨Memory.rising_insert a v (Memory.rising_erase a h.1) fun c hc => (Memory.mem_erase.1 hc).2,
      fun c hc => ?_⟩
    rcases Memory.mem_insert.1 hc with h1 | h1
    · rw [h1]; exact ⟨ha, hv⟩
    · exact h.2 c (Memory.mem_erase.1 h1).1

@[simp] theorem State.peek_poke (s : State) (a b : Nat) (v : Byte) :
    (s.poke a v).peek b = if b = a then v else s.peek b :=
  Memory.read_write s.params.font s.mem a b v

theorem State.reset_memory_wf (p : Params) : (State.resetWith p).mem.wf (State.resetWith p).params.font = true := rfl

end Sys2Proof.Machine
end

