-- ==== Sys2Proof/Laws/Ops.lean ====
section
/-! SUPPORT. What each shared operation can do, said once: address resolution, byte accesses, block transfers, the
stack, the phases of a cycle. -/

namespace Sys2Proof.Machine

/-! ## Resolution and byte accesses -/

theorem resolve_eq (p : Params) (a : Nat) :
    resolve p a = if a ≤ 4095 ∨ p.addrPolicy = .mask then .ok (a % 4096) else .error .outOfBoundsAddress := by
  unfold resolve
  by_cases h : a ≤ 4095
  · simp [h, Nat.mod_eq_of_lt (Nat.lt_succ_of_le h)]
  · cases hp : p.addrPolicy <;> simp [h, memSize]

theorem resolve_ok {p : Params} {a : Nat} (h : p.addrPolicy = .mask ∨ a ≤ 4095) : resolve p a = .ok (a % 4096) := by
  rw [resolve_eq, if_pos h.symm]

theorem resolve_error {p : Params} {a : Nat} (h : p.addrPolicy = .fault) (ha : 4095 < a) :
    resolve p a = .error .outOfBoundsAddress := by
  rw [resolve_eq, if_neg (by simp [h]; omega)]

/-- A resolved address is an address of memory, and it is the address modulo 4096. -/
theorem resolve_ok_iff {p : Params} {a r : Nat} :
    resolve p a = .ok r ↔ (p.addrPolicy = .mask ∨ a ≤ 4095) ∧ r = a % 4096 := by
  rw [resolve_eq, Or.comm (b := a ≤ 4095)]
  split
  · next h => simp [h, eq_comm (a := r)]
  · next h => simp [h]

theorem resolve_lt {p : Params} {a r : Nat} (h : resolve p a = .ok r) : r < 4096 := by
  rw [(resolve_ok_iff.1 h).2]; exact Nat.mod_lt _ (by decide)

/-- Only FAULT raises, above 4095, and always OutOfBoundsAddress (R225). -/
theorem resolve_error_iff {p : Params} {a : Nat} {k : HaltKind} :
    resolve p a = .error k ↔ p.addrPolicy = .fault ∧ 4095 < a ∧ k = .outOfBoundsAddress := by
  rw [resolve_eq]
  cases hp : p.addrPolicy <;> simp
  split <;> simp [eq_comm] <;> omega

theorem State.memRead_ok (s : State) {a : Nat} (h : s.params.addrPolicy = .mask ∨ a ≤ 4095) :
    s.memRead a = .ok (s.peek (a % 4096)) := by
  simp [State.memRead, resolve_ok h]

theorem State.memRead_error (s : State) {a : Nat} (h : s.params.addrPolicy = .fault) (ha : 4095 < a) :
    s.memRead a = .error .outOfBoundsAddress := by
  simp [State.memRead, resolve_error h ha]

theorem State.memRead_error_iff (s : State) {a : Nat} {k : HaltKind} :
    s.memRead a = .error k ↔ s.params.addrPolicy = .fault ∧ 4095 < a ∧ k = .outOfBoundsAddress := by
  rw [← resolve_error_iff, State.memRead]
  cases resolve s.params a <;> simp

theorem State.memWrite_ok (s : State) {a : Nat} (v : Byte) (h : s.params.addrPolicy = .mask ∨ a ≤ 4095) :
    s.memWrite a v = .ok (s.poke (a % 4096) v) := by
  simp [State.memWrite, resolve_ok h]

theorem State.memWrite_error (s : State) {a : Nat} (v : Byte) (h : s.params.addrPolicy = .fault) (ha : 4095 < a) :
    s.memWrite a v = .error .outOfBoundsAddress := by
  simp [State.memWrite, resolve_error h ha]

/-! ## Blocks -/

/-- A state whose memory alone differs. -/
def State.withMem (s : State) (m : Memory) : State := { s with mem := m }

theorem State.poke_eq_withMem (s : State) (a : Nat) (v : Byte) :
    s.poke a v = s.withMem (Memory.write s.params.font s.mem a v) := rfl

@[simp] theorem State.poke_withMem (s : State) (a : Nat) (v : Byte) (m : Memory) :
    (s.poke a v).withMem m = s.withMem m := rfl
@[simp] theorem State.withMem_withMem (s : State) (m n : Memory) : (s.withMem m).withMem n = s.withMem n := rfl
@[simp] theorem State.withMem_params (s : State) (m : Memory) : (s.withMem m).params = s.params := rfl
@[simp] theorem State.withMem_mem (s : State) (m : Memory) : (s.withMem m).mem = m := rfl
@[simp] theorem State.withMem_self (s : State) : s.withMem s.mem = s := rfl

/-- A block store answers a state whose memory alone differs, still canonical if it was, or it halts with
OutOfBoundsAddress under FAULT where one of its addresses is above 4095. -/
theorem State.storeBytes_cases (l : List Byte) : ∀ (s : State) (a : Nat),
    (∃ m, s.storeBytes a l = .ok (s.withMem m) ∧ (s.mem.wf s.params.font = true → m.wf s.params.font = true)) ∨
    (s.storeBytes a l = .error .outOfBoundsAddress ∧ s.params.addrPolicy = .fault ∧ 4096 < a + l.length) := by
  induction l with
  | nil => exact fun s a => .inl ⟨s.mem, rfl, id⟩
  | cons v rest ih =>
    intro s a
    by_cases h : s.params.addrPolicy = .mask ∨ a ≤ 4095
    · rcases ih (s.poke (a % 4096) v) (a + 1) with ⟨m, h1, h2⟩ | ⟨h1, h2, h3⟩
      · exact .inl ⟨m, by simp [State.storeBytes, s.memWrite_ok v h, h1],
          fun hw => h2 (Memory.wf_write v hw (Nat.mod_lt _ (by decide)))⟩
      · exact .inr ⟨by simp [State.storeBytes, s.memWrite_ok v h, h1], h2, by simp only [List.length_cons]; omega⟩
    · have hf : s.params.addrPolicy = .fault := by
        cases hp : s.params.addrPolicy <;> simp_all
      have ha : 4095 < a := by omega
      exact .inr ⟨by simp [State.storeBytes, s.memWrite_error v hf ha], hf, by simp; omega⟩

/-- Where its addresses resolve, a block store of at most 4096 bytes puts byte k at the address that `a + k` resolves
to, and leaves every other byte alone. -/
theorem State.storeBytes_ok (l : List Byte) : ∀ (s : State) (a : Nat),
    (s.params.addrPolicy = .mask ∨ a + l.length ≤ 4096) → l.length ≤ 4096 →
    ∃ m, s.storeBytes a l = .ok (s.withMem m) ∧
      (∀ k (h : k < l.length), (s.withMem m).peek ((a + k) % 4096) = l[k]) ∧
      (∀ b, (∀ k, k < l.length → b ≠ (a + k) % 4096) → (s.withMem m).peek b = s.peek b) := by
  induction l with
  | nil => exact fun s a _ _ => ⟨s.mem, rfl, by simp, fun _ _ => rfl⟩
  | cons v rest ih =>
    intro s a h hlen
    simp only [List.length_cons] at h hlen
    obtain ⟨m, h1, h2, h3⟩ := ih (s.poke (a % 4096) v) (a + 1) (h.imp id fun h' => by omega) (by omega)
    refine ⟨m, by simp [State.storeBytes, s.memWrite_ok v (h.imp id fun h' => by omega : _ ∨ a ≤ 4095), h1], fun k hk => ?_, fun b hb => ?_⟩
    · cases k with
      | zero =>
        refine (h3 (a % 4096) fun k hk => ?_).trans (by simp)
        omega
      | succ k =>
        have := h2 k (by simpa using hk)
        simpa only [State.poke_withMem, List.getElem_cons_succ, Nat.add_assoc, Nat.add_comm 1 k] using this
    · refine (h3 b fun k hk => ?_).trans ?_
      · have := hb (k + 1) (by simp; omega)
        simpa [Nat.add_assoc, Nat.add_comm 1 k] using this
      · have := hb 0 (by simp)
        simp only [Nat.add_zero] at this
        simp [this]

/-- A block store whose last address is above 4095 halts under FAULT. -/
theorem State.storeBytes_error (l : List Byte) : ∀ (s : State) (a : Nat), s.params.addrPolicy = .fault →
    l ≠ [] → 4096 < a + l.length → s.storeBytes a l = .error .outOfBoundsAddress := by
  induction l with
  | nil => exact fun _ _ _ h _ => absurd rfl h
  | cons v rest ih =>
    intro s a hf _ ha
    by_cases h : a ≤ 4095
    · rw [State.storeBytes, s.memWrite_ok v (.inr h)]
      simp only [List.length_cons] at ha
      exact ih (s.poke _ v) (a + 1) hf (fun h' => by simp [h'] at ha; omega) (by omega)
    · rw [State.storeBytes, s.memWrite_error v hf (by omega)]

/-- A state whose V registers alone differ. -/
def State.withV (s : State) (v : Vector Byte 16) : State := { s with V := v }

@[simp] theorem State.withV_writeV (s : State) (v : Vector Byte 16) (x : Nibble) (b : Byte) :
    (s.withV v).writeV x b = s.withV (v.set x.toNat b x.isLt) := rfl
@[simp] theorem State.withV_memRead (s : State) (v : Vector Byte 16) (a : Nat) :
    (s.withV v).memRead a = s.memRead a := rfl
@[simp] theorem State.withV_peek (s : State) (v : Vector Byte 16) (a : Nat) : (s.withV v).peek a = s.peek a := rfl

/-- A block load answers a state whose V registers alone differ, and of them only the first `n`, or it halts with
OutOfBoundsAddress under FAULT where one of its addresses is above 4095. -/
theorem State.loadFirstRegs_cases (s : State) (a n : Nat) :
    (∃ v, s.loadFirstRegs a n = .ok (s.withV v) ∧
      ∀ r : Nibble, n ≤ r.toNat → (s.withV v).readV r = s.readV r) ∨
    (s.loadFirstRegs a n = .error .outOfBoundsAddress ∧ s.params.addrPolicy = .fault ∧ 4096 < a + n) := by
  induction n with
  | zero => exact .inl ⟨s.V, rfl, fun _ _ => rfl⟩
  | succ k ih =>
    rcases ih with ⟨v, h, hr⟩ | ⟨h1, h2, h3⟩
    · by_cases hp : s.params.addrPolicy = .mask ∨ a + k ≤ 4095
      · refine .inl ⟨v.set (BitVec.ofNat 4 k).toNat (s.peek ((a + k) % 4096)) (BitVec.ofNat 4 k).isLt, by
          simp only [State.loadFirstRegs, h, State.withV_memRead, s.memRead_ok hp, State.withV_writeV], fun r hk => ?_⟩
        have hne : r ≠ BitVec.ofNat 4 k := fun h' => by
          have : r.toNat ≤ k := by rw [h', BitVec.toNat_ofNat]; exact Nat.mod_le ..
          omega
        rw [← State.withV_writeV, State.readV_writeV, if_neg hne, hr r (by omega)]
      · have hf : s.params.addrPolicy = .fault := by cases hp' : s.params.addrPolicy <;> simp_all
        exact .inr ⟨by simp [State.loadFirstRegs, h, s.memRead_error hf (by omega : 4095 < a + k)], hf, by omega⟩
    · exact .inr ⟨by simp [State.loadFirstRegs, h1], h2, by omega⟩

/-- A block load whose last address is above 4095 halts under FAULT. -/
theorem State.loadFirstRegs_error (s : State) (a n : Nat) (hf : s.params.addrPolicy = .fault)
    (ha : 4096 < a + (n + 1)) : s.loadFirstRegs a (n + 1) = .error .outOfBoundsAddress := by
  unfold State.loadFirstRegs
  rcases s.loadFirstRegs_cases a n with ⟨v, h, -⟩ | ⟨h, -⟩
  · simp only [h, State.withV_memRead, s.memRead_error hf (by omega : 4095 < a + n)]
  · simp only [h]

/-- Where its addresses resolve, a block load of at most 16 registers gives register k the byte that `a + k` resolves
to, and leaves the other registers alone. -/
theorem State.loadFirstRegs_ok (s : State) (a n : Nat) (hn : n ≤ 16)
    (h : s.params.addrPolicy = .mask ∨ a + n ≤ 4096) :
    ∃ v, s.loadFirstRegs a n = .ok (s.withV v) ∧
      ∀ r : Nibble, (s.withV v).readV r = if r.toNat < n then s.peek ((a + r.toNat) % 4096) else s.readV r := by
  induction n with
  | zero => exact ⟨s.V, rfl, fun r => by simp; rfl⟩
  | succ k ih =>
    obtain ⟨v, h1, h2⟩ := ih (by omega) (h.imp id fun h' => by omega)
    refine ⟨v.set (BitVec.ofNat 4 k).toNat (s.peek ((a + k) % 4096)) (BitVec.ofNat 4 k).isLt, ?_, fun r => ?_⟩
    · simp only [State.loadFirstRegs, h1, State.withV_memRead,
        s.memRead_ok (h.imp id fun h' => by omega : _ ∨ a + k ≤ 4095), State.withV_writeV]
    · rw [← State.withV_writeV, State.readV_writeV, h2 r]
      have hk : (BitVec.ofNat 4 k).toNat = k := by simp; omega
      by_cases hr : r = BitVec.ofNat 4 k
      · rw [if_pos hr, hr, hk, if_pos (by omega)]
      · have : r.toNat ≠ k := fun h' => hr (BitVec.eq_of_toNat_eq (h'.trans hk.symm))
        rw [if_neg hr]
        by_cases h3 : r.toNat < k
        · rw [if_pos h3, if_pos (by omega)]
        · rw [if_neg h3, if_neg (by omega)]

/-! ## The cycle -/

@[simp] theorem runCycle_eq (s : State) (f : State → State) : runCycle s f = .next (f s.advance).endCycle := rfl

/-- The cycle of an instruction that may halt always gives a next state: the effect's, or the halt. -/
theorem runCycleOrHalt_cases {w : Word} {s t : State} {f : State → Except HaltKind State}
    (h : runCycleOrHalt w s f = .next t) :
    (∃ u, f s.advance = .ok u ∧ t = u.endCycle) ∨ ∃ k, f s.advance = .error k ∧ t = s.takeHalt k (some w) := by
  unfold runCycleOrHalt at h
  split at h
  · next u hu => exact .inl ⟨u, hu, (Host.Outcome.next.inj h).symm⟩
  · next k hk => exact .inr ⟨k, hk, (Host.Outcome.next.inj h).symm⟩

theorem runCycleOrHalt_ok {w : Word} {s u : State} {f : State → Except HaltKind State} (h : f s.advance = .ok u) :
    runCycleOrHalt w s f = .next u.endCycle := by
  simp [runCycleOrHalt, h]

theorem runCycleOrHalt_error {w : Word} {s : State} {f : State → Except HaltKind State} {k : HaltKind}
    (h : f s.advance = .error k) : runCycleOrHalt w s f = .next (s.takeHalt k (some w)) := by
  simp [runCycleOrHalt, h]

theorem runCycleOrHalt_next (w : Word) (s : State) (f : State → Except HaltKind State) :
    ∃ t, runCycleOrHalt w s f = .next t := by
  unfold runCycleOrHalt
  split <;> exact ⟨_, rfl⟩

/-! ## The stack -/

/-- The values of `STACK_DEPTH` are exactly those of R7: unbounded, or a positive number. -/
theorem stackDepth_range (p : Params) : p.stackDepth = none ∨ ∃ d, 0 < d ∧ p.stackDepth = some d := by
  cases h : p.stackBound with
  | none => exact .inl (by rw [Params.stackDepth, h]; rfl)
  | some d => exact .inr ⟨d.1, d.2, by rw [Params.stackDepth, h]; rfl⟩

/-- A push onto an empty stack never overflows, since no bound is 0 (R7, R26). -/
theorem State.push_of_empty (s : State) (v : Word) (h : s.stack = []) : s.push v = .ok (s.setStack [v]) := by
  have hd : s.params.stackDepth ≠ some s.stack.length := fun h' => by
    rcases stackDepth_range s.params with h0 | ⟨d, hd, h0⟩ <;> simp [h0, h] at h'
    omega
  rw [State.push, if_neg hd, h]

/-! ## The advance -/

theorem advancedPc_toNat (a0 : Word) :
    (advancedPc a0).toNat = if 4095 < (a0.toNat + 2) % 65536 then 0 else (a0.toNat + 2) % 65536 := by
  unfold advancedPc
  have : (a0 + 2#16).toNat = (a0.toNat + 2) % 65536 := by simp [BitVec.toNat_add]
  rw [this]
  split
  · rfl
  · exact this

theorem advancedPc_le (a0 : Word) : (advancedPc a0).toNat ≤ 4095 := by
  rw [advancedPc_toNat]; split <;> omega

/-! ## Fetch -/

theorem State.fetchWord_ok (s : State) (h : s.params.addrPolicy = .mask ∨ s.pc.toNat ≤ 4094) :
    s.fetchWord = .ok (wordOfBytes (s.peek (s.pc.toNat % 4096)) (s.peek ((s.pc.toNat + 1) % 4096))) := by
  simp [State.fetchWord, s.memRead_ok (h.imp id fun h' => by omega : _ ∨ s.pc.toNat ≤ 4095),
    s.memRead_ok (h.imp id fun h' => by omega : _ ∨ s.pc.toNat + 1 ≤ 4095)]

theorem State.fetchWord_error (s : State) (h : s.params.addrPolicy = .fault) (hp : 4094 < s.pc.toNat) :
    s.fetchWord = .error .outOfBoundsAddress := by
  by_cases h1 : s.pc.toNat ≤ 4095
  · simp [State.fetchWord, s.memRead_ok (.inr h1), s.memRead_error h (by omega : 4095 < s.pc.toNat + 1)]
  · simp [State.fetchWord, s.memRead_error h (by omega : 4095 < s.pc.toNat)]

/-- The two bytes of a word put its value together again (R55). -/
theorem wordOfBytes_bytes (w : Word) : wordOfBytes (highByte w) (lowByte w) = w := by
  refine BitVec.eq_of_getLsbD_eq fun k hk => ?_
  show (highByte w ++ lowByte w : BitVec (8 + 8)).getLsbD k = _
  rw [BitVec.getLsbD_append]
  by_cases h : k < 8
  · simp [h, lowByte]
  · have h8 : k - 8 < 8 := by omega
    simp [h, highByte, h8, show 8 + (k - 8) = k by omega]

end Sys2Proof.Machine
end

