-- ==== Sys2Proof/Laws/Display.lean ====
section
/-! SUPPORT. The rasterizer: what one pixel, one row and all rows of a draw do to every pixel and to the collision. -/

namespace Sys2Proof.Machine

open Sys2Proof.Claims

theorem pixelOf_togglePixel (fb : BitVec 2048) {py px y x : Nat} (hpy : py ≤ 31) (hpx : px ≤ 63) (hx : x ≤ 63)
    (hy : y ≤ 31) : pixelOf (togglePixel fb py px) y x = (pixelOf fb y x ^^ decide (y = py ∧ x = px)) := by
  simp only [pixelOf, togglePixel, displayW, BitVec.getLsbD_xor, BitVec.getLsbD_shiftLeft, BitVec.getLsbD_one]
  congr 1
  by_cases h : y = py ∧ x = px
  · obtain ⟨rfl, rfl⟩ := h
    simp; omega
  · rw [decide_eq_false h]
    simp only [Bool.and_eq_false_iff, decide_eq_false_iff_not, Bool.not_eq_false', decide_eq_true_iff]
    omega

/-- The columns of one row: a pixel is toggled exactly where a column drawn so far has a 1 bit on it. -/
theorem drawColumns_pixel (py x0 : Nat) (row : Byte) (d : Drawing) (hpy : py ≤ 31) {y x : Nat} (hy : y ≤ 31)
    (hx : x ≤ 63) (c : Nat) :
    pixelOf (drawColumns py x0 row c d).fb y x =
      (pixelOf d.fb y x ^^ decide (y = py ∧ x0 ≤ x ∧ x < x0 + c ∧ row.getLsbD (7 - (x - x0)) = true)) := by
  induction c with
  | zero =>
    have : ¬ (y = py ∧ x0 ≤ x ∧ x < x0 + 0 ∧ row.getLsbD (7 - (x - x0)) = true) := by omega
    simp only [drawColumns, decide_eq_false this, Bool.xor_false]
  | succ c ih =>
    simp only [drawColumns, drawColumn]
    by_cases h63 : 63 < x0 + c
    · rw [if_pos h63, ih]
      congr 1; rw [decide_eq_decide]
      constructor <;> rintro ⟨h1, h2, h3, h4⟩ <;> exact ⟨h1, h2, by omega, h4⟩
    · rw [if_neg h63]
      by_cases hb : row.getLsbD (7 - c) = true
      · rw [if_pos hb]
        simp only
        rw [pixelOf_togglePixel _ hpy (by omega) hx hy, ih, Bool.xor_assoc]
        congr 1
        by_cases hxc : x = x0 + c
        · subst hxc
          by_cases hyp : y = py <;> simp [hyp, hb]
        · have h1 : ¬ (y = py ∧ x = x0 + c) := fun h => hxc h.2
          rw [decide_eq_false h1, Bool.xor_false, decide_eq_decide]
          constructor <;> rintro ⟨h1, h2, h3, h4⟩ <;> exact ⟨h1, h2, by omega, h4⟩
      · rw [if_neg hb, ih]
        congr 1; rw [decide_eq_decide]
        constructor
        · rintro ⟨h1, h2, h3, h4⟩; exact ⟨h1, h2, by omega, h4⟩
        · rintro ⟨h1, h2, h3, h4⟩
          refine ⟨h1, h2, ?_, h4⟩
          by_contra h5
          have : x - x0 = c := by omega
          exact hb (this ▸ h4)

/-- The columns of one row: a collision so far is one before, or a pixel that was set under a 1 bit. -/
theorem drawColumns_collision (py x0 : Nat) (row : Byte) (d : Drawing) (hpy : py ≤ 31) (c : Nat) :
    (drawColumns py x0 row c d).collision = true ↔
      d.collision = true ∨ ∃ x, x ≤ 63 ∧ x0 ≤ x ∧ x < x0 + c ∧ row.getLsbD (7 - (x - x0)) = true ∧
        pixelOf d.fb py x = true := by
  induction c with
  | zero =>
    simp only [drawColumns]
    exact ⟨.inl, fun h => h.elim id fun ⟨x, _, h1, h2, _⟩ => by omega⟩
  | succ c ih =>
    simp only [drawColumns, drawColumn]
    by_cases h63 : 63 < x0 + c
    · rw [if_pos h63, ih]
      refine or_congr_right ⟨?_, ?_⟩ <;> rintro ⟨x, h1, h2, h3, h4⟩ <;> exact ⟨x, h1, h2, by omega, h4⟩
    · rw [if_neg h63]
      by_cases hb : row.getLsbD (7 - c) = true
      · rw [if_pos hb]
        simp only [Bool.or_eq_true, ih, or_assoc]
        have hp : pixelOf (drawColumns py x0 row c d).fb py (x0 + c) = pixelOf d.fb py (x0 + c) := by
          rw [drawColumns_pixel py x0 row d hpy hpy (by omega)]
          simp
        rw [hp]
        refine or_congr_right ⟨?_, ?_⟩
        · rintro (⟨x, h1, h2, h3, h4⟩ | h)
          · exact ⟨x, h1, h2, by omega, h4⟩
          · exact ⟨x0 + c, by omega, by omega, by omega, by simpa using hb, h⟩
        · rintro ⟨x, h1, h2, h3, h4, h5⟩
          by_cases hxc : x = x0 + c
          · exact .inr (hxc ▸ h5)
          · exact .inl ⟨x, h1, h2, by omega, h4, h5⟩
      · rw [if_neg hb, ih]
        refine or_congr_right ⟨?_, ?_⟩
        · rintro ⟨x, h1, h2, h3, h4⟩; exact ⟨x, h1, h2, by omega, h4⟩
        · rintro ⟨x, h1, h2, h3, h4, h5⟩
          refine ⟨x, h1, h2, ?_, h4, h5⟩
          by_contra h6
          have : x - x0 = c := by omega
          exact hb (this ▸ h4)

theorem spriteCovers_succ {s : State} {x0 y0 r y x : Nat} :
    spriteCovers s x0 y0 (r + 1) y x ↔ spriteCovers s x0 y0 r y x ∨
      (y = y0 + r ∧ y ≤ 31 ∧ x ≤ 63 ∧ x0 ≤ x ∧ x < x0 + 8 ∧
        ∃ a, resolve s.params (s.I.toNat + r) = .ok a ∧ (s.peek a).getLsbD (7 - (x - x0)) = true) := by
  unfold spriteCovers
  constructor
  · rintro ⟨h1, h2, h3, h4, h5, h6, h7⟩
    by_cases hy : y = y0 + r
    · rw [show y - y0 = r by omega] at h7
      exact .inr ⟨hy, h1, h2, h5, h6, h7⟩
    · exact .inl ⟨h1, h2, h3, by omega, h5, h6, h7⟩
  · rintro (⟨h1, h2, h3, h4, h5, h6, h7⟩ | ⟨hy, h1, h2, h5, h6, h7⟩)
    · exact ⟨h1, h2, h3, by omega, h5, h6, h7⟩
    · refine ⟨h1, h2, by omega, by omega, h5, h6, ?_⟩
      rw [show y - y0 = r by omega]
      exact h7

/-- What a draw has done once its rows are drawn: each pixel is toggled exactly where the sprite covers it, and a
collision is a set pixel that the sprite covers. -/
theorem State.drawRows_ok (s : State) (x0 y0 r : Nat)
    (h : s.params.addrPolicy = .mask ∨ ∀ k, rowDrawn y0 r k → s.I.toNat + k ≤ 4095) :
    ∃ d, s.drawRows x0 y0 r = .ok d ∧
      (∀ y x, y ≤ 31 → x ≤ 63 → (pixelOf d.fb y x ≠ s.pixel y x ↔ spriteCovers s x0 y0 r y x)) ∧
      (d.collision = true ↔ ∃ y x, spriteCovers s x0 y0 r y x ∧ s.pixel y x = true) := by
  induction r with
  | zero =>
    refine ⟨⟨s.fb, false⟩, rfl, fun y x _ _ => ⟨fun h => absurd rfl h, fun h => ?_⟩, ⟨fun h => (by simp at h), ?_⟩⟩
    · have := h.2.2.1; have := h.2.2.2.1; omega
    · rintro ⟨y, x, h, _⟩
      have := h.2.2.1; have := h.2.2.2.1; omega
  | succ r ih =>
    obtain ⟨d, h1, h2, h3⟩ := ih (h.imp id fun h' k hk => h' k ⟨Nat.lt_succ_of_lt hk.1, hk.2⟩)
    by_cases hy : 31 < y0 + r
    · have hs : ∀ y x, spriteCovers s x0 y0 (r + 1) y x ↔ spriteCovers s x0 y0 r y x := fun y x => by
        rw [spriteCovers_succ]
        exact ⟨fun h => h.elim id fun h => by omega, .inl⟩
      exact ⟨d, by simp [State.drawRows, h1, hy], by simpa only [hs] using h2, by simpa only [hs] using h3⟩
    · have hp : s.params.addrPolicy = .mask ∨ s.I.toNat + r ≤ 4095 :=
        h.imp id fun h' => h' r ⟨Nat.lt_succ_self r, by omega⟩
      have hpy : y0 + r ≤ 31 := by omega
      generalize hrow : s.peek ((s.I.toNat + r) % 4096) = row
      have hs : ∀ y x, spriteCovers s x0 y0 (r + 1) y x ↔ spriteCovers s x0 y0 r y x ∨
          (y = y0 + r ∧ x ≤ 63 ∧ x0 ≤ x ∧ x < x0 + 8 ∧ row.getLsbD (7 - (x - x0)) = true) := fun y x => by
        rw [spriteCovers_succ, resolve_ok hp]
        refine or_congr_right ⟨?_, ?_⟩
        · rintro ⟨h1, _, h2, h3, h4, a, ha, h5⟩
          rw [← Except.ok.inj ha, hrow] at h5
          exact ⟨h1, h2, h3, h4, h5⟩
        · rintro ⟨h1, h2, h3, h4, h5⟩
          exact ⟨h1, by omega, h2, h3, h4, _, rfl, hrow ▸ h5⟩
      have hn : ∀ x, ¬ spriteCovers s x0 y0 r (y0 + r) x := fun x h => by have := h.2.2.2.1; omega
      have hold : ∀ x, x ≤ 63 → pixelOf d.fb (y0 + r) x = s.pixel (y0 + r) x := fun x hx => by
        have := (h2 (y0 + r) x hpy hx).not.2 (hn x)
        simpa using this
      refine ⟨drawColumns (y0 + r) x0 row 8 d, by simp [State.drawRows, h1, hy, s.memRead_ok hp, hrow], ?_, ?_⟩
      · intro y x hy31 hx
        rw [hs, drawColumns_pixel _ _ _ _ hpy hy31 hx, ← h2 y x hy31 hx]
        by_cases hyr : y = y0 + r
        · subst hyr
          rw [hold x hx]
          by_cases hb : x0 ≤ x ∧ x < x0 + 8 ∧ row.getLsbD (7 - (x - x0)) = true <;> simp [hb, hx]
        · simp [hyr]
      · rw [drawColumns_collision _ _ _ _ hpy, h3]
        constructor
        · rintro (⟨y, x, h4, h5⟩ | ⟨x, h4, h5, h6, h7, h8⟩)
          · exact ⟨y, x, (hs y x).2 (.inl h4), h5⟩
          · exact ⟨y0 + r, x, (hs _ x).2 (.inr ⟨rfl, h4, h5, h6, h7⟩), by rw [← hold x h4]; exact h8⟩
        · rintro ⟨y, x, h4, h5⟩
          rcases (hs y x).1 h4 with h6 | ⟨rfl, h6, h7, h8, h9⟩
          · exact .inl ⟨y, x, h6, h5⟩
          · exact .inr ⟨x, h6, h7, h8, h9, by rw [hold x h6]; exact h5⟩

/-- A draw whose rows do not all resolve halts with OutOfBoundsAddress; that takes FAULT. -/
theorem State.drawRows_error (s : State) (x0 y0 r : Nat) (hf : s.params.addrPolicy = .fault)
    (h : ∃ k, rowDrawn y0 r k ∧ 4095 < s.I.toNat + k) : s.drawRows x0 y0 r = .error .outOfBoundsAddress := by
  induction r with
  | zero => obtain ⟨k, hk, _⟩ := h; exact absurd hk.1 (Nat.not_lt_zero _)
  | succ r ih =>
    by_cases hr : ∃ k, rowDrawn y0 r k ∧ 4095 < s.I.toNat + k
    · simp [State.drawRows, ih hr]
    · obtain ⟨k, hk, ha⟩ := h
      have hkr : k = r := by
        by_contra hne
        exact hr ⟨k, ⟨by have := hk.1; omega, hk.2⟩, ha⟩
      subst hkr
      obtain ⟨d, h1, -⟩ := s.drawRows_ok x0 y0 k (.inr fun j hj => by
        by_contra h'
        exact hr ⟨j, hj, by omega⟩)
      have h31 : ¬ 31 < y0 + k := by have := hk.2; omega
      simp [State.drawRows, h1, h31, s.memRead_error hf ha]

/-- A draw answers a drawing, or halts with OutOfBoundsAddress under FAULT where a drawn row is above 4095. -/
theorem State.drawRows_cases (s : State) (x0 y0 r : Nat) :
    (∃ d, s.drawRows x0 y0 r = .ok d) ∨
      (s.drawRows x0 y0 r = .error .outOfBoundsAddress ∧ s.params.addrPolicy = .fault ∧
        ∃ k, rowDrawn y0 r k ∧ 4095 < s.I.toNat + k) := by
  by_cases h : s.params.addrPolicy = .mask ∨ ∀ k, rowDrawn y0 r k → s.I.toNat + k ≤ 4095
  · obtain ⟨d, h1, -⟩ := s.drawRows_ok x0 y0 r h
    exact .inl ⟨d, h1⟩
  · rw [not_or] at h
    have hf : s.params.addrPolicy = .fault := by cases hp : s.params.addrPolicy <;> simp_all
    obtain ⟨k, hk⟩ := not_forall.1 h.2
    obtain ⟨hk1, hk2⟩ := Classical.not_imp.1 hk
    exact .inr ⟨s.drawRows_error x0 y0 r hf ⟨k, hk1, by omega⟩, hf, k, hk1, by omega⟩

end Sys2Proof.Machine
end

