-- ==== Sys2Proof/Laws/Encoding.lean ====
section
/-! SUPPORT. The fields of the word layouts, the masks of the four domains in terms of fields, and that every
instruction is well formed. -/

namespace Sys2Proof

/-! ## Layouts and fields as numbers -/

theorem layoutNNN_toNat (op : Nibble) (nnn : Addr) : (layoutNNN op nnn).toNat = op.toNat * 4096 + nnn.toNat := by
  show (op ++ nnn : BitVec (4 + 12)).toNat = _
  rw [BitVec.toNat_append, ← Nat.shiftLeft_add_eq_or_of_lt nnn.isLt, Nat.shiftLeft_eq]

theorem layoutXNN_toNat (op x : Nibble) (nn : Byte) :
    (layoutXNN op x nn).toNat = op.toNat * 4096 + x.toNat * 256 + nn.toNat := by
  show ((op ++ x : BitVec (4 + 4)) ++ nn : BitVec (4 + 4 + 8)).toNat = _
  rw [BitVec.toNat_append, BitVec.toNat_append, ← Nat.shiftLeft_add_eq_or_of_lt nn.isLt,
    ← Nat.shiftLeft_add_eq_or_of_lt x.isLt, Nat.shiftLeft_eq, Nat.shiftLeft_eq]
  omega

theorem layoutXYN_toNat (op x y n : Nibble) :
    (layoutXYN op x y n).toNat = op.toNat * 4096 + x.toNat * 256 + y.toNat * 16 + n.toNat := by
  show ((op ++ x : BitVec (4 + 4)) ++ (y ++ n : BitVec (4 + 4)) : BitVec (4 + 4 + (4 + 4))).toNat = _
  rw [BitVec.toNat_append, BitVec.toNat_append, ← Nat.shiftLeft_add_eq_or_of_lt (BitVec.isLt _),
    ← Nat.shiftLeft_add_eq_or_of_lt x.isLt, BitVec.toNat_append, ← Nat.shiftLeft_add_eq_or_of_lt n.isLt,
    Nat.shiftLeft_eq, Nat.shiftLeft_eq, Nat.shiftLeft_eq]
  omega

theorem fieldOp_toNat (w : Word) : (fieldOp w).toNat = w.toNat / 4096 := by
  have := w.isLt
  simp only [fieldOp, BitVec.extractLsb'_toNat, Nat.shiftRight_eq_div_pow]
  omega

theorem fieldX_toNat (w : Word) : (fieldX w).toNat = w.toNat / 256 % 16 := by
  simp [fieldX, BitVec.extractLsb'_toNat, Nat.shiftRight_eq_div_pow]

theorem fieldY_toNat (w : Word) : (fieldY w).toNat = w.toNat / 16 % 16 := by
  simp [fieldY, BitVec.extractLsb'_toNat, Nat.shiftRight_eq_div_pow]

theorem fieldN_toNat (w : Word) : (fieldN w).toNat = w.toNat % 16 := by
  simp [fieldN, BitVec.extractLsb'_toNat]

theorem fieldNN_toNat (w : Word) : (fieldNN w).toNat = w.toNat % 256 := by
  simp [fieldNN, BitVec.extractLsb'_toNat]

theorem fieldNNN_toNat (w : Word) : (fieldNNN w).toNat = w.toNat % 4096 := by
  simp [fieldNNN, BitVec.extractLsb'_toNat]

/-! ## The fields of a layout -/

@[simp] theorem fieldOp_layoutNNN (op : Nibble) (nnn : Addr) : fieldOp (layoutNNN op nnn) = op := by
  apply BitVec.eq_of_toNat_eq; rw [fieldOp_toNat, layoutNNN_toNat]; have := nnn.isLt; omega
@[simp] theorem fieldNNN_layoutNNN (op : Nibble) (nnn : Addr) : fieldNNN (layoutNNN op nnn) = nnn := by
  apply BitVec.eq_of_toNat_eq; rw [fieldNNN_toNat, layoutNNN_toNat]; have := nnn.isLt; omega
@[simp] theorem fieldOp_layoutXNN (op x : Nibble) (nn : Byte) : fieldOp (layoutXNN op x nn) = op := by
  apply BitVec.eq_of_toNat_eq; rw [fieldOp_toNat, layoutXNN_toNat]; have := nn.isLt; have := x.isLt; omega
@[simp] theorem fieldX_layoutXNN (op x : Nibble) (nn : Byte) : fieldX (layoutXNN op x nn) = x := by
  apply BitVec.eq_of_toNat_eq; rw [fieldX_toNat, layoutXNN_toNat]; have := nn.isLt; have := x.isLt; omega
@[simp] theorem fieldNN_layoutXNN (op x : Nibble) (nn : Byte) : fieldNN (layoutXNN op x nn) = nn := by
  apply BitVec.eq_of_toNat_eq; rw [fieldNN_toNat, layoutXNN_toNat]; have := nn.isLt; omega
@[simp] theorem fieldOp_layoutXYN (op x y n : Nibble) : fieldOp (layoutXYN op x y n) = op := by
  apply BitVec.eq_of_toNat_eq; rw [fieldOp_toNat, layoutXYN_toNat]
  have := x.isLt; have := y.isLt; have := n.isLt; omega
@[simp] theorem fieldX_layoutXYN (op x y n : Nibble) : fieldX (layoutXYN op x y n) = x := by
  apply BitVec.eq_of_toNat_eq; rw [fieldX_toNat, layoutXYN_toNat]
  have := x.isLt; have := y.isLt; have := n.isLt; omega
@[simp] theorem fieldY_layoutXYN (op x y n : Nibble) : fieldY (layoutXYN op x y n) = y := by
  apply BitVec.eq_of_toNat_eq; rw [fieldY_toNat, layoutXYN_toNat]
  have := x.isLt; have := y.isLt; have := n.isLt; omega
@[simp] theorem fieldN_layoutXYN (op x y n : Nibble) : fieldN (layoutXYN op x y n) = n := by
  apply BitVec.eq_of_toNat_eq; rw [fieldN_toNat, layoutXYN_toNat]
  have := x.isLt; have := y.isLt; have := n.isLt; omega

/-! ## Words from their fields, and the masks -/

theorem layoutNNN_fields (w : Word) : layoutNNN (fieldOp w) (fieldNNN w) = w := by
  apply BitVec.eq_of_toNat_eq; rw [layoutNNN_toNat, fieldOp_toNat, fieldNNN_toNat]; omega

theorem layoutXNN_fields (w : Word) : layoutXNN (fieldOp w) (fieldX w) (fieldNN w) = w := by
  apply BitVec.eq_of_toNat_eq; rw [layoutXNN_toNat, fieldOp_toNat, fieldX_toNat, fieldNN_toNat]; omega

theorem layoutXYN_fields (w : Word) : layoutXYN (fieldOp w) (fieldX w) (fieldY w) (fieldN w) = w := by
  apply BitVec.eq_of_toNat_eq
  rw [layoutXYN_toNat, fieldOp_toNat, fieldX_toNat, fieldY_toNat, fieldN_toNat]; omega

/-- Masking with 0xF000 keeps the top nibble. -/
theorem mask_F000 (w : Word) : w &&& 0xF000#16 = layoutNNN (fieldOp w) 0#12 := by
  refine BitVec.eq_of_getLsbD_eq fun k hk => ?_
  show _ = (fieldOp w ++ 0#12 : BitVec (4 + 12)).getLsbD k
  rw [BitVec.getLsbD_append]
  interval_cases k <;> simp [fieldOp]

/-- Masking with 0xF00F keeps the top and the bottom nibble. -/
theorem mask_F00F (w : Word) : w &&& 0xF00F#16 = layoutXYN (fieldOp w) 0#4 0#4 (fieldN w) := by
  refine BitVec.eq_of_getLsbD_eq fun k hk => ?_
  show _ = ((fieldOp w ++ 0#4 : BitVec (4 + 4)) ++ (0#4 ++ fieldN w : BitVec (4 + 4)) :
    BitVec (4 + 4 + (4 + 4))).getLsbD k
  rw [BitVec.getLsbD_append, BitVec.getLsbD_append, BitVec.getLsbD_append]
  interval_cases k <;> simp [fieldOp, fieldN]

/-- Masking with 0xF0FF keeps the top nibble and the low byte. -/
theorem mask_F0FF (w : Word) : w &&& 0xF0FF#16 = layoutXNN (fieldOp w) 0#4 (fieldNN w) := by
  refine BitVec.eq_of_getLsbD_eq fun k hk => ?_
  show _ = ((fieldOp w ++ 0#4 : BitVec (4 + 4)) ++ fieldNN w : BitVec (4 + 4 + 8)).getLsbD k
  rw [BitVec.getLsbD_append, BitVec.getLsbD_append]
  interval_cases k <;> simp [fieldOp, fieldNN]

theorem layoutNNN_inj {op op' : Nibble} {a a' : Addr} : layoutNNN op a = layoutNNN op' a' ↔ op = op' ∧ a = a' :=
  ⟨fun h => ⟨by simpa using congrArg fieldOp h, by simpa using congrArg fieldNNN h⟩, fun ⟨h, h'⟩ => by rw [h, h']⟩

theorem layoutXNN_inj {op op' x x' : Nibble} {nn nn' : Byte} :
    layoutXNN op x nn = layoutXNN op' x' nn' ↔ op = op' ∧ x = x' ∧ nn = nn' :=
  ⟨fun h => ⟨by simpa using congrArg fieldOp h, by simpa using congrArg fieldX h, by simpa using congrArg fieldNN h⟩,
    fun ⟨h, h', h''⟩ => by rw [h, h', h'']⟩

theorem layoutXYN_inj {op op' x x' y y' n n' : Nibble} :
    layoutXYN op x y n = layoutXYN op' x' y' n' ↔ op = op' ∧ x = x' ∧ y = y' ∧ n = n' :=
  ⟨fun h => ⟨by simpa using congrArg fieldOp h, by simpa using congrArg fieldX h, by simpa using congrArg fieldY h,
    by simpa using congrArg fieldN h⟩, fun ⟨h, h', h'', h'''⟩ => by rw [h, h', h'', h''']⟩

/-- A word under the mask 0xF00F is a pattern exactly when its two nibbles are the pattern's. -/
theorem mask_F00F_eq {w p : Word} (hp : p &&& 0xF00F#16 = p) :
    w &&& 0xF00F#16 = p ↔ fieldOp w = fieldOp p ∧ fieldN w = fieldN p := by
  rw [← hp, mask_F00F, mask_F00F, layoutXYN_inj]
  simp

/-- A word under the mask 0xF0FF is a pattern exactly when its top nibble and low byte are the pattern's. -/
theorem mask_F0FF_eq {w p : Word} (hp : p &&& 0xF0FF#16 = p) :
    w &&& 0xF0FF#16 = p ↔ fieldOp w = fieldOp p ∧ fieldNN w = fieldNN p := by
  rw [← hp, mask_F0FF, mask_F0FF, layoutXNN_inj]
  simp

/-- A word under the mask 0xF000 is a pattern exactly when its top nibble is the pattern's. -/
theorem mask_F000_eq {w p : Word} (hp : p &&& 0xF000#16 = p) :
    w &&& 0xF000#16 = p ↔ fieldOp w = fieldOp p := by
  rw [← hp, mask_F000, mask_F000, layoutNNN_inj]
  simp

/-! ## The domains in terms of fields -/

/-- Domain 1 holds only words whose top nibble is 0 (R74). -/
theorem decodeFullWord_of_op_ne {w : Word} (h : fieldOp w ≠ 0#4) : decodeFullWord w = none := by
  unfold decodeFullWord
  have h1 : w ≠ 0x00E0#16 := fun h' => h (by rw [h']; decide)
  have h2 : w ≠ 0x00EE#16 := fun h' => h (by rw [h']; decide)
  rw [if_neg h1, if_neg h2]

/-- Domain 3, its conditions read as the top and the bottom nibble. -/
theorem decodeMaskF00F_fields (w : Word) : decodeMaskF00F w =
    if fieldOp w = 0x5#4 ∧ fieldN w = 0x0#4 then some (.seReg (fieldX w) (fieldY w))
    else if fieldOp w = 0x8#4 ∧ fieldN w = 0x0#4 then some (.ldReg (fieldX w) (fieldY w))
    else if fieldOp w = 0x8#4 ∧ fieldN w = 0x1#4 then some (.orReg (fieldX w) (fieldY w))
    else if fieldOp w = 0x8#4 ∧ fieldN w = 0x2#4 then some (.andReg (fieldX w) (fieldY w))
    else if fieldOp w = 0x8#4 ∧ fieldN w = 0x3#4 then some (.xorReg (fieldX w) (fieldY w))
    else if fieldOp w = 0x8#4 ∧ fieldN w = 0x4#4 then some (.addReg (fieldX w) (fieldY w))
    else if fieldOp w = 0x8#4 ∧ fieldN w = 0x5#4 then some (.subReg (fieldX w) (fieldY w))
    else if fieldOp w = 0x8#4 ∧ fieldN w = 0x6#4 then some (.shr (fieldX w) (fieldY w))
    else if fieldOp w = 0x8#4 ∧ fieldN w = 0x7#4 then some (.subnReg (fieldX w) (fieldY w))
    else if fieldOp w = 0x8#4 ∧ fieldN w = 0xE#4 then some (.shl (fieldX w) (fieldY w))
    else if fieldOp w = 0x9#4 ∧ fieldN w = 0x0#4 then some (.sneReg (fieldX w) (fieldY w))
    else none := by
  unfold decodeMaskF00F
  simp only [mask_F00F_eq (w := w) (p := 0x5000#16) (by decide),
    mask_F00F_eq (w := w) (p := 0x8000#16) (by decide),
    mask_F00F_eq (w := w) (p := 0x8001#16) (by decide),
    mask_F00F_eq (w := w) (p := 0x8002#16) (by decide),
    mask_F00F_eq (w := w) (p := 0x8003#16) (by decide),
    mask_F00F_eq (w := w) (p := 0x8004#16) (by decide),
    mask_F00F_eq (w := w) (p := 0x8005#16) (by decide),
    mask_F00F_eq (w := w) (p := 0x8006#16) (by decide),
    mask_F00F_eq (w := w) (p := 0x8007#16) (by decide),
    mask_F00F_eq (w := w) (p := 0x800E#16) (by decide),
    mask_F00F_eq (w := w) (p := 0x9000#16) (by decide)]
  rfl

/-- Domain 4, its conditions read as the top nibble and the low byte. -/
theorem decodeMaskF0FF_fields (w : Word) : decodeMaskF0FF w =
    if fieldOp w = 0xE#4 ∧ fieldNN w = 0x9E#8 then some (.skp (fieldX w))
    else if fieldOp w = 0xE#4 ∧ fieldNN w = 0xA1#8 then some (.sknp (fieldX w))
    else if fieldOp w = 0xF#4 ∧ fieldNN w = 0x07#8 then some (.ldVxDT (fieldX w))
    else if fieldOp w = 0xF#4 ∧ fieldNN w = 0x0A#8 then some (.ldVxK (fieldX w))
    else if fieldOp w = 0xF#4 ∧ fieldNN w = 0x15#8 then some (.ldDTVx (fieldX w))
    else if fieldOp w = 0xF#4 ∧ fieldNN w = 0x18#8 then some (.ldSTVx (fieldX w))
    else if fieldOp w = 0xF#4 ∧ fieldNN w = 0x1E#8 then some (.addI (fieldX w))
    else if fieldOp w = 0xF#4 ∧ fieldNN w = 0x29#8 then some (.ldF (fieldX w))
    else if fieldOp w = 0xF#4 ∧ fieldNN w = 0x33#8 then some (.ldB (fieldX w))
    else if fieldOp w = 0xF#4 ∧ fieldNN w = 0x55#8 then some (.storeRegs (fieldX w))
    else if fieldOp w = 0xF#4 ∧ fieldNN w = 0x65#8 then some (.loadRegs (fieldX w))
    else none := by
  unfold decodeMaskF0FF
  simp only [mask_F0FF_eq (w := w) (p := 0xE09E#16) (by decide),
    mask_F0FF_eq (w := w) (p := 0xE0A1#16) (by decide),
    mask_F0FF_eq (w := w) (p := 0xF007#16) (by decide),
    mask_F0FF_eq (w := w) (p := 0xF00A#16) (by decide),
    mask_F0FF_eq (w := w) (p := 0xF015#16) (by decide),
    mask_F0FF_eq (w := w) (p := 0xF018#16) (by decide),
    mask_F0FF_eq (w := w) (p := 0xF01E#16) (by decide),
    mask_F0FF_eq (w := w) (p := 0xF029#16) (by decide),
    mask_F0FF_eq (w := w) (p := 0xF033#16) (by decide),
    mask_F0FF_eq (w := w) (p := 0xF055#16) (by decide),
    mask_F0FF_eq (w := w) (p := 0xF065#16) (by decide)]
  rfl

/-- No two rows of the opcode map are selected by one word: where both masks look, their patterns differ (R74). -/
theorem opcodeMap_rows_disjoint :
    opcodeMap.Pairwise fun r r' => (r.pattern ^^^ r'.pattern) &&& (r.mask &&& r'.mask) ≠ 0#16 := by decide

/-! ## Well-formedness -/

@[simp] theorem fitsNibble_toNat (x : Nibble) : fitsNibble x.toNat = true := decide_eq_true x.isLt
@[simp] theorem fitsByte_toNat (x : Byte) : fitsByte x.toNat = true := decide_eq_true x.isLt
@[simp] theorem fitsAddr_toNat (x : Addr) : fitsAddr x.toNat = true := decide_eq_true x.isLt

/-- The operand types carry the bounds, so every instruction is well formed. -/
theorem Instr.wellFormed_true (i : Instr) : i.wellFormed = true := by cases i <;> simp [Instr.wellFormed]

end Sys2Proof
end

