-- ==== Sys2Proof/Laws/Exec.lean ====
section
/-! SUPPORT. The two outcomes of each of the six instructions that may halt (spec/60_exceptions.md R228): the state its
effect gives, or the halt with its cause. Then the one state of each skip, and the two of FX0A. The other
instructions' outcome is one state, by `rfl`. -/

namespace Sys2Proof.Machine

open Sys2Proof.Claims

theorem exec_ret_cases {s t : State} (h : exec .ret s = .next t) :
    (∃ v rest, s.stack = v :: rest ∧ t = ((s.advance.setStack rest).setPc v).endCycle) ∨
      (s.stack = [] ∧ t = s.takeHalt .stackUnderflow (some (encode .ret))) := by
  change execRet s = _ at h
  unfold execRet runCycleOrHalt State.pop at h
  beta_reduce at h
  rw [show s.advance.stack = s.stack from rfl] at h
  cases hs : s.stack with
  | nil => rw [hs] at h; exact .inr ⟨rfl, (Host.Outcome.next.inj h).symm⟩
  | cons v rest => rw [hs] at h; exact .inl ⟨v, rest, rfl, (Host.Outcome.next.inj h).symm⟩

theorem exec_call_cases {nnn : Addr} {s t : State} (h : exec (.call nnn) s = .next t) :
    (s.params.stackDepth ≠ some s.stack.length ∧
      t = ((s.advance.setStack (advancedPc s.pc :: s.stack)).setPc (nnn.setWidth 16)).endCycle) ∨
      (s.params.stackDepth = some s.stack.length ∧ t = s.takeHalt .stackOverflow (some (encode (.call nnn)))) := by
  change execCall nnn s = _ at h
  unfold execCall runCycleOrHalt State.push at h
  beta_reduce at h
  rw [show s.advance.stack = s.stack from rfl, show s.advance.params = s.params from rfl] at h
  by_cases hd : s.params.stackDepth = some s.stack.length
  · rw [if_pos hd] at h; exact .inr ⟨hd, (Host.Outcome.next.inj h).symm⟩
  · rw [if_neg hd] at h; exact .inl ⟨hd, (Host.Outcome.next.inj h).symm⟩

@[simp] theorem State.drawRows_advance (s : State) (x0 y0 r : Nat) :
    s.advance.drawRows x0 y0 r = s.drawRows x0 y0 r := by
  induction r with
  | zero => rfl
  | succ r ih => simp only [State.drawRows, ih]; rfl

theorem exec_drw_cases {x y n : Nibble} {s t : State} (h : exec (.drw x y n) s = .next t) :
    (∃ d, s.drawRows (s.readV x).toNat (s.readV y).toNat n.toNat = .ok d ∧
      t = ((s.advance.setFb d.fb).writeVF (flagByte d.collision)).endCycle) ∨
      ((s.params.addrPolicy = .fault ∧ ∃ k, rowDrawn (s.readV y).toNat n.toNat k ∧ 4095 < s.I.toNat + k) ∧
        t = s.takeHalt .outOfBoundsAddress (some (encode (.drw x y n)))) := by
  change execDrw x y n s = _ at h
  unfold execDrw runCycleOrHalt at h
  beta_reduce at h
  rw [State.drawRows_advance, show s.advance.readV x = s.readV x from rfl,
    show s.advance.readV y = s.readV y from rfl] at h
  rcases s.drawRows_cases (s.readV x).toNat (s.readV y).toNat n.toNat with ⟨d, hd⟩ | ⟨hd, hc⟩
  · rw [hd] at h; exact .inl ⟨d, hd, (Host.Outcome.next.inj h).symm⟩
  · rw [hd] at h; exact .inr ⟨hc, (Host.Outcome.next.inj h).symm⟩

theorem exec_ldB_cases {x : Nibble} {s t : State} (h : exec (.ldB x) s = .next t) :
    (∃ m, s.advance.storeBytes s.I.toNat (decimalDigits (s.readV x)) = .ok (s.advance.withMem m) ∧
      (s.mem.wf s.params.font = true → m.wf s.params.font = true) ∧ t = (s.advance.withMem m).endCycle) ∨
      ((s.params.addrPolicy = .fault ∧ 4095 < s.I.toNat + 2) ∧
        t = s.takeHalt .outOfBoundsAddress (some (encode (.ldB x)))) := by
  change execLdB x s = _ at h
  unfold execLdB runCycleOrHalt at h
  beta_reduce at h
  rw [show s.advance.I = s.I from rfl, show s.advance.readV x = s.readV x from rfl] at h
  rcases State.storeBytes_cases (decimalDigits (s.readV x)) s.advance s.I.toNat with ⟨m, hm, hw⟩ | ⟨hm, hf, ha⟩
  · rw [hm] at h; exact .inl ⟨m, hm, hw, (Host.Outcome.next.inj h).symm⟩
  · rw [hm] at h
    exact .inr ⟨⟨hf, by simp [decimalDigits] at ha; omega⟩, (Host.Outcome.next.inj h).symm⟩

theorem exec_storeRegs_cases {x : Nibble} {s t : State} (h : exec (.storeRegs x) s = .next t) :
    (∃ m, s.advance.storeBytes s.I.toNat (s.firstRegs (x.toNat + 1)) = .ok (s.advance.withMem m) ∧
      (s.mem.wf s.params.font = true → m.wf s.params.font = true) ∧
      t = ((s.advance.withMem m).advanceI s.I x).endCycle) ∨
      ((s.params.addrPolicy = .fault ∧ 4095 < s.I.toNat + x.toNat) ∧
        t = s.takeHalt .outOfBoundsAddress (some (encode (.storeRegs x)))) := by
  change execStoreRegs x s = _ at h
  unfold execStoreRegs runCycleOrHalt at h
  beta_reduce at h
  rw [show s.advance.I = s.I from rfl,
    show s.advance.firstRegs (x.toNat + 1) = s.firstRegs (x.toNat + 1) from rfl] at h
  rcases State.storeBytes_cases (s.firstRegs (x.toNat + 1)) s.advance s.I.toNat with ⟨m, hm, hw⟩ | ⟨hm, hf, ha⟩
  · rw [hm] at h; exact .inl ⟨m, hm, hw, (Host.Outcome.next.inj h).symm⟩
  · rw [hm] at h
    exact .inr ⟨⟨hf, by simp [State.firstRegs] at ha; omega⟩, (Host.Outcome.next.inj h).symm⟩

theorem exec_loadRegs_cases {x : Nibble} {s t : State} (h : exec (.loadRegs x) s = .next t) :
    (∃ v, s.advance.loadFirstRegs s.I.toNat (x.toNat + 1) = .ok (s.advance.withV v) ∧
      (∀ r : Nibble, x.toNat < r.toNat → (s.withV v).readV r = s.readV r) ∧
      t = ((s.advance.withV v).advanceI s.I x).endCycle) ∨
      ((s.params.addrPolicy = .fault ∧ 4095 < s.I.toNat + x.toNat) ∧
        t = s.takeHalt .outOfBoundsAddress (some (encode (.loadRegs x)))) := by
  change execLoadRegs x s = _ at h
  unfold execLoadRegs runCycleOrHalt at h
  beta_reduce at h
  rw [show s.advance.I = s.I from rfl] at h
  rcases s.advance.loadFirstRegs_cases s.I.toNat (x.toNat + 1) with ⟨v, hv, hr⟩ | ⟨hv, hf, ha⟩
  · rw [hv] at h; exact .inl ⟨v, hv, hr, (Host.Outcome.next.inj h).symm⟩
  · rw [hv] at h; exact .inr ⟨⟨hf, by omega⟩, (Host.Outcome.next.inj h).symm⟩

/-! ## Skips and the wait for a key -/

theorem State.skipIf_eq (s : State) (c : Bool) : s.skipIf c = s.setPc (if c then s.pc + 2#16 else s.pc) := by
  cases c <;> rfl

/-- The address a skip leaves in `pc`. -/
def skipTarget (c : Bool) (a0 : Word) : Word := if c then advancedPc a0 + 2#16 else advancedPc a0

/-- A skip from the wrapped address adds 0 or 2 and never wraps: the result is at most 4097. -/
theorem skipTarget_toNat (c : Bool) (a0 : Word) :
    (skipTarget c a0).toNat = (advancedPc a0).toNat + if c then 2 else 0 := by
  have := advancedPc_le a0
  cases c
  · rfl
  · simp only [skipTarget, if_true, BitVec.toNat_add, BitVec.toNat_ofNat]
    omega

theorem runCycle_skipIf (s : State) (cond : State → Bool) :
    runCycle s (fun t => t.skipIf (cond t)) = .next (s.setPc (skipTarget (cond s.advance) s.pc)).endCycle := by
  simp only [runCycle, State.skipIf_eq]
  rfl

theorem exec_seImm (x : Nibble) (nn : Byte) (s : State) :
    exec (.seImm x nn) s = .next (s.setPc (skipTarget (s.readV x == nn) s.pc)).endCycle :=
  runCycle_skipIf s fun t => t.readV x == nn
theorem exec_sneImm (x : Nibble) (nn : Byte) (s : State) :
    exec (.sneImm x nn) s = .next (s.setPc (skipTarget (s.readV x != nn) s.pc)).endCycle :=
  runCycle_skipIf s fun t => t.readV x != nn
theorem exec_seReg (x y : Nibble) (s : State) :
    exec (.seReg x y) s = .next (s.setPc (skipTarget (s.readV x == s.readV y) s.pc)).endCycle :=
  runCycle_skipIf s fun t => t.readV x == t.readV y
theorem exec_sneReg (x y : Nibble) (s : State) :
    exec (.sneReg x y) s = .next (s.setPc (skipTarget (s.readV x != s.readV y) s.pc)).endCycle :=
  runCycle_skipIf s fun t => t.readV x != t.readV y
theorem exec_skp (x : Nibble) (s : State) :
    exec (.skp x) s = .next (s.setPc (skipTarget (pressed s.input.keys (s.keyId x)) s.pc)).endCycle :=
  runCycle_skipIf s fun t => pressed t.input.keys (t.keyId x)
theorem exec_sknp (x : Nibble) (s : State) :
    exec (.sknp x) s = .next (s.setPc (skipTarget (!pressed s.input.keys (s.keyId x)) s.pc)).endCycle :=
  runCycle_skipIf s fun t => !pressed t.input.keys (t.keyId x)

theorem exec_ldVxK_none {x : Nibble} {s : State} (h : firstKey s.input.keys = none) :
    exec (.ldVxK x) s = .next s.endCycle := by
  change execLdVxK x s = _
  unfold execLdVxK runCycle
  simp only [State.advance_input, h]
  rfl

theorem exec_ldVxK_some {x k : Nibble} {s : State} (h : firstKey s.input.keys = some k) :
    exec (.ldVxK x) s = .next (s.advance.writeV x (k.setWidth 8)).endCycle := by
  change execLdVxK x s = _
  unfold execLdVxK runCycle
  simp only [State.advance_input, h]

/-! ## Every instruction answers a next state -/

theorem exec_answers_next (i : Instr) (s : State) : ∃ t, exec i s = .next t := by
  cases i
  case ret => change ∃ t, execRet s = _; exact runCycleOrHalt_next _ _ _
  case call nnn => change ∃ t, execCall nnn s = _; exact runCycleOrHalt_next _ _ _
  case drw x y n => change ∃ t, execDrw x y n s = _; exact runCycleOrHalt_next _ _ _
  case ldB x => change ∃ t, execLdB x s = _; exact runCycleOrHalt_next _ _ _
  case storeRegs x => change ∃ t, execStoreRegs x s = _; exact runCycleOrHalt_next _ _ _
  case loadRegs x => change ∃ t, execLoadRegs x s = _; exact runCycleOrHalt_next _ _ _
  all_goals exact ⟨_, rfl⟩

end Sys2Proof.Machine
end

