-- ==== Sys2Proof/Laws/Fetch.lean ====
section
/-! SUPPORT. A placed word is the word the next step fetches. -/

namespace Sys2Proof.Machine

/-- A state made ready fetches: it is loaded, it has not halted, and its fetch resolves. -/
theorem State.readyToFetch_spec (s : State) :
    s.readyToFetch.loaded = true ∧ s.readyToFetch.halted = false ∧
      (s.readyToFetch.params.addrPolicy = .mask ∨ s.readyToFetch.pc.toNat ≤ 4094) := by
  unfold State.readyToFetch
  split
  · next h =>
    simp only [State.fetches, Bool.and_eq_true, Bool.not_eq_true', Bool.and_eq_false_iff, beq_eq_false_iff_ne,
      decide_eq_false_iff_not] at h
    refine ⟨h.1.1, h.1.2, ?_⟩
    rcases h.2 with h2 | h2
    · left; cases hp : s.params.addrPolicy <;> simp_all
    · right; omega
  · exact ⟨rfl, rfl, .inr (show (0x200#16).toNat ≤ 4094 by decide)⟩

/-- The next fetch from a state with a word placed reads that word. -/
theorem State.withFetchWord_fetchWord (s : State) (w : Nat) :
    (s.withFetchWord 16 w).fetchWord = .ok (BitVec.ofNat 16 w) := by
  obtain ⟨-, -, h⟩ := s.readyToFetch_spec
  simp only [State.withFetchWord, State.placeFetchWord]
  rw [State.fetchWord_ok _ (by simpa using h)]
  have hne : s.readyToFetch.pc.toNat % 4096 ≠ (s.readyToFetch.pc.toNat + 1) % 4096 := by omega
  have hw : BitVec.ofNat 16 (w % 2 ^ 16) = BitVec.ofNat 16 w := BitVec.eq_of_toNat_eq (by simp)
  simp only [memSize, State.peek_poke, State.poke_pc, if_true, if_neg hne, hw, wordOfBytes_bytes]

/-- A step from a state with a word placed runs the instruction of that word, or the no-op of an unknown one. -/
theorem step_withFetchWord (s : State) (w : Nat) :
    step (s.withFetchWord 16 w) =
      match decodeWord (BitVec.ofNat 16 w) with
      | some i => exec i (s.withFetchWord 16 w)
      | none => execUnknown (s.withFetchWord 16 w) := by
  have hl : (s.withFetchWord 16 w).loaded = true := s.readyToFetch_spec.1
  have hh : (s.withFetchWord 16 w).halted = false := s.readyToFetch_spec.2.1
  unfold step cycle
  rw [hl, hh, s.withFetchWord_fetchWord w]
  cases h : decodeWord (BitVec.ofNat 16 w) <;> simp [h]

end Sys2Proof.Machine
end

