-- ==== Sys2Proof/Laws/Flags.lean ====
section
/-! SUPPORT. The arithmetic, its flags and the operands as numbers. -/

namespace Sys2Proof.Machine

theorem flagByte_toNat (b : Bool) : (flagByte b).toNat = if b then 1 else 0 := by cases b <;> rfl

theorem wideSum_toNat (a b : Byte) : (wideSum a b).toNat = a.toNat + b.toNat := by
  have := a.isLt; have := b.isLt
  simp only [wideSum, BitVec.toNat_add, BitVec.toNat_setWidth]
  omega

theorem addResult_toNat (a b : Byte) : (addResult a b).toNat = (a.toNat + b.toNat) % 256 := by
  simp [addResult, BitVec.extractLsb'_toNat, wideSum_toNat]

theorem addCarry_iff (a b : Byte) : addCarry a b = true ↔ 255 < a.toNat + b.toNat := by
  simp [addCarry, wideSum_toNat]

theorem subResult_toNat (a b : Byte) : (subResult a b).toNat = (a.toNat + 256 - b.toNat) % 256 := by
  have := a.isLt; have := b.isLt
  simp only [subResult, BitVec.toNat_sub]
  omega

theorem noBorrow_iff (a b : Byte) : noBorrow a b = true ↔ b.toNat ≤ a.toNat := by simp [noBorrow]

theorem shrResult_toNat (a : Byte) : (shrResult a).toNat = a.toNat / 2 := by
  simp [shrResult, Nat.shiftRight_eq_div_pow]

theorem shrOut_toNat (a : Byte) : (flagByte (shrOut a)).toNat = a.toNat % 2 := by
  rw [flagByte_toNat, shrOut, BitVec.getLsbD, Nat.testBit_zero]
  by_cases h : a.toNat % 2 = 1 <;> simp [h]
  omega

theorem shlResult_toNat (a : Byte) : (shlResult a).toNat = 2 * a.toNat % 256 := by
  simp [shlResult, Nat.shiftLeft_eq, Nat.mul_comm]

theorem shlOut_toNat (a : Byte) : (flagByte (shlOut a)).toNat = a.toNat / 128 := by
  have := a.isLt
  have hb : shlOut a = decide (a.toNat / 128 % 2 = 1) := by
    rw [shlOut, BitVec.getLsbD, Nat.testBit_eq_decide_div_mod_eq]
  rw [flagByte_toNat, hb]
  by_cases h : a.toNat / 128 % 2 = 1
  · rw [decide_eq_true h, if_pos rfl]; omega
  · rw [decide_eq_false h, if_neg Bool.false_ne_true]; omega

/-- The registers after the two writes of a flag-writing instruction: VF holds the flag, whatever x is (R22). -/
theorem State.readV_writeWithFlag (s : State) (x r : Nibble) (b : Byte) (f : Bool) :
    (s.writeWithFlag x b f).readV r = if r = 0xF#4 then flagByte f else if r = x then b else s.readV r := by
  simp [State.writeWithFlag, State.writeVF]

theorem decayed_toNat (v : Byte) :
    (decayed .saturate v).toNat = v.toNat - 1 ∧ (decayed .wrap v).toNat = (v.toNat + 255) % 256 := by
  have hsub : (v - 1#8).toNat = (v.toNat + 255) % 256 := by
    have := v.isLt
    rw [BitVec.toNat_sub]; simp; omega
  refine ⟨?_, hsub⟩
  unfold decayed
  by_cases h : v = 0#8
  · simp [h]
  · have h0 : v.toNat ≠ 0 := fun h' => h (BitVec.eq_of_toNat_eq h')
    have := v.isLt
    simp only [if_neg h, hsub]
    omega

theorem glyphAddress_toNat (g : Byte) : (glyphAddress g).toNat = 0x50 + 5 * g.toNat := by
  have := g.isLt
  simp [glyphAddress, fontBase]
  omega

theorem mem_pressedKeys {keys : Keys} {k : Nibble} : k ∈ pressedKeys keys ↔ keys.getLsbD k.toNat = true := by
  simp only [pressedKeys, List.mem_map, List.mem_filter, List.mem_range]
  constructor
  · rintro ⟨n, ⟨h1, h2⟩, rfl⟩
    rwa [BitVec.toNat_ofNat, Nat.mod_eq_of_lt h1]
  · exact fun h => ⟨k.toNat, ⟨k.isLt, h⟩, by simp⟩

theorem pressedKeys_eq_nil {keys : Keys} : pressedKeys keys = [] ↔ keys = 0#16 := by
  constructor
  · intro h
    refine BitVec.eq_of_getLsbD_eq fun k hk => ?_
    have : ¬ BitVec.ofNat 4 k ∈ pressedKeys keys := by simp [h]
    rw [mem_pressedKeys, BitVec.toNat_ofNat, Nat.mod_eq_of_lt hk] at this
    simpa using this
  · rintro rfl
    decide

/-- Whatever the choice among several keys, `FIRST_KEY` is none exactly when no key is pressed, and otherwise a
pressed key (R234). -/
theorem firstKeyBy_spec (pick : Keys → Nibble) (keys : Keys) :
    (firstKeyBy pick keys = none ↔ keys = 0#16) ∧
      ∀ k, firstKeyBy pick keys = some k → keys.getLsbD k.toNat = true := by
  rw [← pressedKeys_eq_nil]
  unfold firstKeyBy
  split
  · next h => simp [h]
  · next k h => exact ⟨by simp [h], fun k' h' => by
      rw [← Option.some.inj h', ← mem_pressedKeys, h]; exact List.mem_singleton_self _⟩
  · next k k2 rest h =>
    refine ⟨by simp only [h, reduceCtorEq, iff_false]; split <;> simp, fun k' h' => ?_⟩
    split at h'
    · next hp => rw [← Option.some.inj h']; exact hp
    · rw [← Option.some.inj h', ← mem_pressedKeys, h]; exact List.mem_cons_self ..

end Sys2Proof.Machine
end

