-- ==== Sys2Proof/Laws/PerInstr.lean ====
section
/-! SUPPORT. Per-instruction families: one lemma per constructor of Instr. -/

namespace Sys2Proof.Laws.EncodingInRow

/-- The word of the instruction is selected by a row of the opcode map (R80, R81). -/
def Statement (i : Instr) : Prop := ∃ r ∈ opcodeMap, r.selectedBy (encode i) = true

theorem of_F000 {w p : Word} (hm : (⟨p, 0xF000#16⟩ : Row) ∈ opcodeMap) (hp : p &&& 0xF000#16 = p)
    (h : fieldOp w = fieldOp p) : ∃ r ∈ opcodeMap, r.selectedBy w = true :=
  ⟨_, hm, beq_iff_eq.2 ((mask_F000_eq hp).2 h)⟩

theorem of_F00F {w p : Word} (hm : (⟨p, 0xF00F#16⟩ : Row) ∈ opcodeMap) (hp : p &&& 0xF00F#16 = p)
    (h : fieldOp w = fieldOp p ∧ fieldN w = fieldN p) : ∃ r ∈ opcodeMap, r.selectedBy w = true :=
  ⟨_, hm, beq_iff_eq.2 ((mask_F00F_eq hp).2 h)⟩

theorem of_F0FF {w p : Word} (hm : (⟨p, 0xF0FF#16⟩ : Row) ∈ opcodeMap) (hp : p &&& 0xF0FF#16 = p)
    (h : fieldOp w = fieldOp p ∧ fieldNN w = fieldNN p) : ∃ r ∈ opcodeMap, r.selectedBy w = true :=
  ⟨_, hm, beq_iff_eq.2 ((mask_F0FF_eq hp).2 h)⟩

theorem cls : Statement .cls :=
  ⟨⟨0x00E0#16, 0xFFFF#16⟩, by decide, by decide⟩
theorem ret : Statement .ret :=
  ⟨⟨0x00EE#16, 0xFFFF#16⟩, by decide, by decide⟩
theorem jp (nnn : Addr) : Statement (.jp nnn) :=
  of_F000 (p := 0x1000#16) (by decide) (by decide) (fieldOp_layoutNNN ..)
theorem call (nnn : Addr) : Statement (.call nnn) :=
  of_F000 (p := 0x2000#16) (by decide) (by decide) (fieldOp_layoutNNN ..)
theorem seImm (x : Nibble) (nn : Byte) : Statement (.seImm x nn) :=
  of_F000 (p := 0x3000#16) (by decide) (by decide) (fieldOp_layoutXNN ..)
theorem sneImm (x : Nibble) (nn : Byte) : Statement (.sneImm x nn) :=
  of_F000 (p := 0x4000#16) (by decide) (by decide) (fieldOp_layoutXNN ..)
theorem seReg (x : Nibble) (y : Nibble) : Statement (.seReg x y) :=
  of_F00F (p := 0x5000#16) (by decide) (by decide) ⟨fieldOp_layoutXYN .., fieldN_layoutXYN ..⟩
theorem ldImm (x : Nibble) (nn : Byte) : Statement (.ldImm x nn) :=
  of_F000 (p := 0x6000#16) (by decide) (by decide) (fieldOp_layoutXNN ..)
theorem addImm (x : Nibble) (nn : Byte) : Statement (.addImm x nn) :=
  of_F000 (p := 0x7000#16) (by decide) (by decide) (fieldOp_layoutXNN ..)
theorem ldReg (x : Nibble) (y : Nibble) : Statement (.ldReg x y) :=
  of_F00F (p := 0x8000#16) (by decide) (by decide) ⟨fieldOp_layoutXYN .., fieldN_layoutXYN ..⟩
theorem orReg (x : Nibble) (y : Nibble) : Statement (.orReg x y) :=
  of_F00F (p := 0x8001#16) (by decide) (by decide) ⟨fieldOp_layoutXYN .., fieldN_layoutXYN ..⟩
theorem andReg (x : Nibble) (y : Nibble) : Statement (.andReg x y) :=
  of_F00F (p := 0x8002#16) (by decide) (by decide) ⟨fieldOp_layoutXYN .., fieldN_layoutXYN ..⟩
theorem xorReg (x : Nibble) (y : Nibble) : Statement (.xorReg x y) :=
  of_F00F (p := 0x8003#16) (by decide) (by decide) ⟨fieldOp_layoutXYN .., fieldN_layoutXYN ..⟩
theorem addReg (x : Nibble) (y : Nibble) : Statement (.addReg x y) :=
  of_F00F (p := 0x8004#16) (by decide) (by decide) ⟨fieldOp_layoutXYN .., fieldN_layoutXYN ..⟩
theorem subReg (x : Nibble) (y : Nibble) : Statement (.subReg x y) :=
  of_F00F (p := 0x8005#16) (by decide) (by decide) ⟨fieldOp_layoutXYN .., fieldN_layoutXYN ..⟩
theorem shr (x : Nibble) (y : Nibble) : Statement (.shr x y) :=
  of_F00F (p := 0x8006#16) (by decide) (by decide) ⟨fieldOp_layoutXYN .., fieldN_layoutXYN ..⟩
theorem subnReg (x : Nibble) (y : Nibble) : Statement (.subnReg x y) :=
  of_F00F (p := 0x8007#16) (by decide) (by decide) ⟨fieldOp_layoutXYN .., fieldN_layoutXYN ..⟩
theorem shl (x : Nibble) (y : Nibble) : Statement (.shl x y) :=
  of_F00F (p := 0x800E#16) (by decide) (by decide) ⟨fieldOp_layoutXYN .., fieldN_layoutXYN ..⟩
theorem sneReg (x : Nibble) (y : Nibble) : Statement (.sneReg x y) :=
  of_F00F (p := 0x9000#16) (by decide) (by decide) ⟨fieldOp_layoutXYN .., fieldN_layoutXYN ..⟩
theorem ldI (nnn : Addr) : Statement (.ldI nnn) :=
  of_F000 (p := 0xA000#16) (by decide) (by decide) (fieldOp_layoutNNN ..)
theorem jpV0 (nnn : Addr) : Statement (.jpV0 nnn) :=
  of_F000 (p := 0xB000#16) (by decide) (by decide) (fieldOp_layoutNNN ..)
theorem rnd (x : Nibble) (nn : Byte) : Statement (.rnd x nn) :=
  of_F000 (p := 0xC000#16) (by decide) (by decide) (fieldOp_layoutXNN ..)
theorem drw (x : Nibble) (y : Nibble) (n : Nibble) : Statement (.drw x y n) :=
  of_F000 (p := 0xD000#16) (by decide) (by decide) (fieldOp_layoutXYN ..)
theorem skp (x : Nibble) : Statement (.skp x) :=
  of_F0FF (p := 0xE09E#16) (by decide) (by decide) ⟨fieldOp_layoutXNN .., fieldNN_layoutXNN ..⟩
theorem sknp (x : Nibble) : Statement (.sknp x) :=
  of_F0FF (p := 0xE0A1#16) (by decide) (by decide) ⟨fieldOp_layoutXNN .., fieldNN_layoutXNN ..⟩
theorem ldVxDT (x : Nibble) : Statement (.ldVxDT x) :=
  of_F0FF (p := 0xF007#16) (by decide) (by decide) ⟨fieldOp_layoutXNN .., fieldNN_layoutXNN ..⟩
theorem ldVxK (x : Nibble) : Statement (.ldVxK x) :=
  of_F0FF (p := 0xF00A#16) (by decide) (by decide) ⟨fieldOp_layoutXNN .., fieldNN_layoutXNN ..⟩
theorem ldDTVx (x : Nibble) : Statement (.ldDTVx x) :=
  of_F0FF (p := 0xF015#16) (by decide) (by decide) ⟨fieldOp_layoutXNN .., fieldNN_layoutXNN ..⟩
theorem ldSTVx (x : Nibble) : Statement (.ldSTVx x) :=
  of_F0FF (p := 0xF018#16) (by decide) (by decide) ⟨fieldOp_layoutXNN .., fieldNN_layoutXNN ..⟩
theorem addI (x : Nibble) : Statement (.addI x) :=
  of_F0FF (p := 0xF01E#16) (by decide) (by decide) ⟨fieldOp_layoutXNN .., fieldNN_layoutXNN ..⟩
theorem ldF (x : Nibble) : Statement (.ldF x) :=
  of_F0FF (p := 0xF029#16) (by decide) (by decide) ⟨fieldOp_layoutXNN .., fieldNN_layoutXNN ..⟩
theorem ldB (x : Nibble) : Statement (.ldB x) :=
  of_F0FF (p := 0xF033#16) (by decide) (by decide) ⟨fieldOp_layoutXNN .., fieldNN_layoutXNN ..⟩
theorem storeRegs (x : Nibble) : Statement (.storeRegs x) :=
  of_F0FF (p := 0xF055#16) (by decide) (by decide) ⟨fieldOp_layoutXNN .., fieldNN_layoutXNN ..⟩
theorem loadRegs (x : Nibble) : Statement (.loadRegs x) :=
  of_F0FF (p := 0xF065#16) (by decide) (by decide) ⟨fieldOp_layoutXNN .., fieldNN_layoutXNN ..⟩

end Sys2Proof.Laws.EncodingInRow
end

