-- ==== Sys2Proof/Tests/Slice0.lean ====
section
/-! SUPPORT. Tests of one step each, their expected results from spec/95_test_vectors.md (the vector is named in each
comment), and for every statement of Certificates/Slice0/Obligations.lean with hypotheses a state and operands that
meet them, clause by clause, at the boundaries. -/

namespace Sys2Proof.Tests

open Sys2Proof Sys2Proof.Machine Sys2Proof.Claims

/-! ## Helpers -/

/-- The launch state of R253 with an empty image. -/
def ready : State := { State.reset with pc := 0x200#16, loaded := true }

/-- The launch state at another address. -/
def readyAt (a : Word) : State := { ready with pc := a }

/-- The same state with some registers written. -/
def regs (s : State) (l : List (Nibble × Byte)) : State := l.foldl (fun t c => t.writeV c.1 c.2) s

/-- The same state with some bytes of memory written. -/
def bytes (s : State) (l : List (Nat × Byte)) : State := l.foldl (fun t c => t.poke c.1 c.2) s

/-- The same state with the inputs of its next cycle listed. -/
def given (s : State) (keys : Keys) (rand : Byte) : State := { s with inputs := [⟨keys, rand⟩] }

/-- The same state under `ADDR_POLICY = FAULT`. -/
def faulting (s : State) : State := { s with params := { s.params with addrPolicy := .fault } }

/-- The same state under `KEY_SELECT = REGISTER`. -/
def byRegister (s : State) : State := { s with params := { s.params with keySelect := .register } }

/-- The same state under `TIMER_DECAY = WRAP`. -/
def wrapping (s : State) : State := { s with params := { s.params with timerDecay := .wrap } }

/-- One step from the state with the word placed where it fetches gives a next state with the property. -/
def gives (s : State) (w : Nat) (p : State → Bool) : Bool :=
  match step (s.withFetchWord 16 w) with
  | .next t => p t
  | .fault _ => false
  | .refused _ => false

/-- Start of the ALU vectors: VF = 0x55 where nothing else is said. -/
def alu (l : List (Nibble × Byte)) : State := regs ready ((0xF#4, 0x55#8) :: l)

/-! ## Well-formedness: the bounds refuse what does not fit (R71) -/

theorem test_wellFormed_smoke_nibble : fitsNibble 16 = false ∧ fitsNibble 15 = true := by decide
theorem test_wellFormed_smoke_byte : fitsByte 256 = false ∧ fitsByte 255 = true := by decide
theorem test_wellFormed_smoke_addr : fitsAddr 4096 = false ∧ fitsAddr 4095 = true := by decide

/-! ## Decoding: each word written out from its row of R80, the operands from R71 -/

theorem test_decode_display_control :
    decodeTableWord 16 0x00E0 = some .cls ∧ decodeTableWord 16 0x00EE = some .ret ∧
    decodeTableWord 16 0x1ABC = some (.jp 0xABC) ∧ decodeTableWord 16 0x2210 = some (.call 0x210) ∧
    decodeTableWord 16 0x3A5C = some (.seImm 0xA 0x5C) ∧ decodeTableWord 16 0x4A5C = some (.sneImm 0xA 0x5C) ∧
    decodeTableWord 16 0x5120 = some (.seReg 1 2) ∧ decodeTableWord 16 0x9120 = some (.sneReg 1 2) ∧
    decodeTableWord 16 0xB000 = some (.jpV0 0) ∧ decodeTableWord 16 0xD123 = some (.drw 1 2 3) := by decide

theorem test_decode_alu :
    decodeTableWord 16 0x6A0F = some (.ldImm 0xA 0x0F) ∧ decodeTableWord 16 0x70FF = some (.addImm 0 0xFF) ∧
    decodeTableWord 16 0x8A50 = some (.ldReg 0xA 5) ∧ decodeTableWord 16 0x8A51 = some (.orReg 0xA 5) ∧
    decodeTableWord 16 0x8A52 = some (.andReg 0xA 5) ∧ decodeTableWord 16 0x8A53 = some (.xorReg 0xA 5) ∧
    decodeTableWord 16 0x8014 = some (.addReg 0 1) ∧ decodeTableWord 16 0x8A55 = some (.subReg 0xA 5) ∧
    decodeTableWord 16 0x80F6 = some (.shr 0 0xF) ∧ decodeTableWord 16 0x8A57 = some (.subnReg 0xA 5) ∧
    decodeTableWord 16 0x801E = some (.shl 0 1) ∧ decodeTableWord 16 0xC30F = some (.rnd 3 0x0F) := by decide

theorem test_decode_memory_keys :
    decodeTableWord 16 0xA300 = some (.ldI 0x300) ∧ decodeTableWord 16 0xE19E = some (.skp 1) ∧
    decodeTableWord 16 0xE1A1 = some (.sknp 1) ∧ decodeTableWord 16 0xF107 = some (.ldVxDT 1) ∧
    decodeTableWord 16 0xF20A = some (.ldVxK 2) ∧ decodeTableWord 16 0xF015 = some (.ldDTVx 0) ∧
    decodeTableWord 16 0xF318 = some (.ldSTVx 3) ∧ decodeTableWord 16 0xF21E = some (.addI 2) ∧
    decodeTableWord 16 0xF029 = some (.ldF 0) ∧ decodeTableWord 16 0xF533 = some (.ldB 5) ∧
    decodeTableWord 16 0xFF55 = some (.storeRegs 0xF) ∧ decodeTableWord 16 0xF165 = some (.loadRegs 1) := by decide

/-- E3 to E5, E8, E10, E12, E14, E18, E20 to E22. -/
theorem test_decode_unknown : (decodeWord 0x0000).isNone ∧ (decodeWord 0x00E1).isNone ∧
    (decodeWord 0x0123).isNone ∧ (decodeWord 0x5121).isNone ∧ (decodeWord 0x8018).isNone ∧
    (decodeWord 0x800F).isNone ∧ (decodeWord 0x912F).isNone ∧ (decodeWord 0xE19F).isNone ∧
    (decodeWord 0xF166).isNone ∧ (decodeWord 0xF000).isNone ∧ (decodeWord 0xFFFF).isNone := by decide

/-- R55 and R70: the first byte is the high byte, an instruction takes two, and one byte is none. -/
theorem test_decode_bytes : decode [0x12#8, 0x34#8, 0x56#8] = .ok (.jp 0x234, [0x56#8]) := rfl
theorem test_decode_truncated : decode [0x12#8] = .error .truncated := rfl
theorem test_encode_bytes : encodeBytes (.drw 1 2 3) = [0xD1#8, 0x23#8] := by decide

/-! ## The cycle -/

/-- C1. -/
theorem test_unknown_is_noop :
    gives { ready with DT := 3, ST := 1 } 0x0000 (fun t => t.pc == 0x202 && t.DT == 2 && t.ST == 0) := by decide
/-- C3. -/
theorem test_fetch_wraps_under_mask :
    gives (readyAt 0xFFF) 0x6007 (fun t => t.readV 0 == 0x07 && t.pc == 0x000 && t.peek 0 == 0x07) := by decide
/-- C4: the halt record, and the rest unchanged. -/
theorem test_fetch_halts_under_fault : step (faulting (readyAt 0xFFF)) =
    .next (halted (faulting (readyAt 0xFFF)) .outOfBoundsAddress none) := rfl
/-- C5. -/
theorem test_halted_core_stays : step { ready with halted := true, DT := 5 } =
    .next { ready with halted := true, DT := 5 } := rfl

/-! ## Display -/

/-- G1. -/
theorem test_cls : gives { regs ready [(0xF, 0x42)] with fb := BitVec.allOnes 2048 } 0x00E0
    (fun t => t.fb == 0 && t.readV 0xF == 0x42) := by decide +kernel
/-- G7: clipped at the right and the bottom edge. -/
theorem test_drw_clips : gives (bytes { regs ready [(0, 60), (1, 31)] with I := 0x300 } [(0x300, 0xFF), (0x301, 0xFF)])
    0xD012 (fun t => t.pixel 31 60 && t.pixel 31 63 && !t.pixel 31 59 && !t.pixel 0 60 && !t.pixel 31 0 &&
      t.readV 0xF == 0) := by decide +kernel
/-- G4: the XOR and the collision. -/
theorem test_drw_collides : gives (bytes { ready with I := 0x300, fb := 1 } [(0x300, 0xC0)]) 0xD011
    (fun t => !t.pixel 0 0 && t.pixel 0 1 && t.readV 0xF == 1) := by decide +kernel

/-! ## Control transfer -/

/-- B1. -/
theorem test_ret : gives { readyAt 0x212 with stack := [0x206] } 0x00EE
    (fun t => t.pc == 0x206 && t.stack == []) := by decide
/-- B2: the record holds the word, and the timers do not decay. -/
theorem test_ret_underflow : gives { ready with DT := 3 } 0x00EE (fun t => t.halted && t.pc == 0x200 && t.DT == 3 &&
    t.fault == some ⟨.stackUnderflow, 0x200, some 0x00EE⟩) := by decide
/-- B3. -/
theorem test_jp : gives ready 0x1ABC (fun t => t.pc == 0xABC) := by decide
/-- B21: an odd target. -/
theorem test_jp_odd : gives (readyAt 0x201) 0x1201 (fun t => t.pc == 0x201) := by decide
/-- B6: the pushed address is the wrapped one. -/
theorem test_call : gives (readyAt 0xFFE) 0x2300 (fun t => t.pc == 0x300 && t.stack == [0x000]) := by decide
/-- B8. -/
theorem test_call_overflow : gives { ready with stack := List.replicate 16 0x206 } 0x2300
    (fun t => t.halted && t.stack.length == 16 &&
      t.fault == some ⟨.stackOverflow, 0x200, some 0x2300⟩) := by decide
/-- B19: the skip is not wrapped. -/
theorem test_seImm_not_wrapped : gives (regs (readyAt 0xFFC) [(3, 0x10)]) 0x3310 (fun t => t.pc == 0x1000) := by decide
/-- B20. -/
theorem test_seImm_after_wrap : gives (regs (readyAt 0xFFE) [(3, 0x10)]) 0x3310 (fun t => t.pc == 0x002) := by decide
/-- B11. -/
theorem test_sneImm : gives (regs ready [(3, 0x10)]) 0x4311 (fun t => t.pc == 0x204) := by decide
/-- B11. -/
theorem test_sneImm_equal : gives (regs ready [(3, 0x10)]) 0x4310 (fun t => t.pc == 0x202) := by decide
/-- B12. -/
theorem test_seReg : gives (regs ready [(1, 7), (2, 7)]) 0x5120 (fun t => t.pc == 0x204) := by decide
/-- B14. -/
theorem test_seReg_differ : gives (regs ready [(1, 7), (2, 8)]) 0x5120 (fun t => t.pc == 0x202) := by decide
/-- B14. -/
theorem test_sneReg : gives (regs ready [(1, 7), (2, 8)]) 0x9120 (fun t => t.pc == 0x204) := by decide
/-- B15. -/
theorem test_sneReg_same : gives (regs ready [(1, 7)]) 0x9110 (fun t => t.pc == 0x202) := by decide
/-- B17. -/
theorem test_jpV0_unmasked : gives (regs ready [(0, 0xFF)]) 0xBFFF (fun t => t.pc == 0x10FE) := by decide
/-- B18: V0 is used, never VA. -/
theorem test_jpV0_uses_V0 : gives (regs ready [(0, 0x05), (0xA, 0x20)]) 0xB300 (fun t => t.pc == 0x305) := by decide

/-! ## The ALU -/

/-- A1. -/
theorem test_ldImm : gives (alu []) 0x600A (fun t => t.readV 0 == 0x0A && t.readV 0xF == 0x55) := by decide
/-- A4. -/
theorem test_addImm : gives (alu [(0, 5)]) 0x70FF (fun t => t.readV 0 == 4 && t.readV 0xF == 0x55) := by decide
/-- A5. -/
theorem test_addImm_VF : gives (regs ready [(0xF, 0x10)]) 0x7F01 (fun t => t.readV 0xF == 0x11) := by decide
/-- A6. -/
theorem test_ldReg : gives (alu [(1, 5)]) 0x8010 (fun t => t.readV 0 == 5 && t.readV 1 == 5) := by decide
/-- A8. -/
theorem test_orReg : gives (alu [(0, 0x0C), (1, 0x0A)]) 0x8011
    (fun t => t.readV 0 == 0x0E && t.readV 0xF == 0x55) := by decide
/-- A9. -/
theorem test_andReg : gives (alu [(0, 0x0C), (1, 0x0A)]) 0x8012
    (fun t => t.readV 0 == 0x08 && t.readV 0xF == 0x55) := by decide
/-- A10. -/
theorem test_xorReg : gives (alu [(0, 0x0C), (1, 0x0A)]) 0x8013
    (fun t => t.readV 0 == 0x06 && t.readV 0xF == 0x55) := by decide
/-- A16. -/
theorem test_addReg : gives (alu [(0, 0xFF), (1, 0xFF)]) 0x8014
    (fun t => t.readV 0 == 0xFE && t.readV 0xF == 1) := by decide
/-- A19: with X = F the flag is what remains. -/
theorem test_addReg_VF : gives (regs ready [(0xF, 0xFF), (1, 1)]) 0x8F14 (fun t => t.readV 0xF == 1) := by decide
/-- A21. -/
theorem test_subReg : gives (alu [(0, 3), (1, 5)]) 0x8015
    (fun t => t.readV 0 == 0xFE && t.readV 0xF == 0) := by decide
/-- A22: equal operands do not borrow. -/
theorem test_subReg_equal : gives (alu [(0, 5), (1, 5)]) 0x8015
    (fun t => t.readV 0 == 0 && t.readV 0xF == 1) := by decide
/-- A31: Y is ignored. -/
theorem test_shr : gives (alu [(0, 0xFF), (1, 0)]) 0x8016
    (fun t => t.readV 0 == 0x7F && t.readV 0xF == 1) := by decide
/-- A32. -/
theorem test_shr_VF : gives (regs ready [(0xF, 3)]) 0x8F06 (fun t => t.readV 0xF == 1) := by decide
/-- A33. -/
theorem test_subnReg : gives (alu [(0, 3), (1, 5)]) 0x8017
    (fun t => t.readV 0 == 2 && t.readV 0xF == 1) := by decide
/-- A37. -/
theorem test_subnReg_VF : gives (regs ready [(0xF, 5), (1, 3)]) 0x8F17 (fun t => t.readV 0xF == 0) := by decide
/-- A38. -/
theorem test_shl : gives (alu [(2, 0x81)]) 0x820E (fun t => t.readV 2 == 0x02 && t.readV 0xF == 1) := by decide
/-- A42. -/
theorem test_shl_VF : gives (regs ready [(0xF, 0x40)]) 0x8F0E (fun t => t.readV 0xF == 0) := by decide
/-- A43. -/
theorem test_rnd : gives (given (alu []) 0 0xB7) 0xC30F
    (fun t => t.readV 3 == 0x07 && t.readV 0xF == 0x55) := by decide

/-! ## The index register and memory -/

/-- M1. -/
theorem test_ldI : gives ready 0xAFFF (fun t => t.I == 0xFFF) := by decide
/-- M3: not masked, no flag. -/
theorem test_addI : gives { alu [(0, 1)] with I := 0xFFF } 0xF01E
    (fun t => t.I == 0x1000 && t.readV 0xF == 0x55) := by decide
/-- M3a. -/
theorem test_addI_wraps : gives { alu [(0, 1)] with I := 0xFFFF } 0xF01E (fun t => t.I == 0) := by decide
/-- M5. -/
theorem test_ldF : gives (regs ready [(0, 0xA)]) 0xF029 (fun t => t.I == 0x82) := by decide
/-- M7: the glyph value is not checked. -/
theorem test_ldF_unchecked : gives (regs ready [(0, 0xFF)]) 0xF029 (fun t => t.I == 0x54B) := by decide
/-- M8 (S5). -/
theorem test_ldB : gives { regs ready [(5, 156)] with I := 0x300 } 0xF533
    (fun t => t.peek 0x300 == 1 && t.peek 0x301 == 5 && t.peek 0x302 == 6 && t.I == 0x300) := by decide
/-- M10: each address resolves on its own. -/
theorem test_ldB_wraps : gives { regs ready [(0, 123)] with I := 0xFFF } 0xF033
    (fun t => t.peek 0xFFF == 1 && t.peek 0 == 2 && t.peek 1 == 3) := by decide
/-- M12. -/
theorem test_storeRegs : gives { regs ready [(0, 1), (1, 2), (2, 3)] with I := 0x300 } 0xF155
    (fun t => t.peek 0x300 == 1 && t.peek 0x301 == 2 && t.peek 0x302 == 0 && t.I == 0x302) := by decide
/-- M16: discarded whole. -/
theorem test_storeRegs_halts : gives (faulting { regs ready [(0, 0xA), (1, 0xB), (2, 0xC)] with I := 0xFFE }) 0xF255
    (fun t => t.halted && t.peek 0xFFE == 0 && t.peek 0xFFF == 0 && t.I == 0xFFE) := by decide
/-- M17. -/
theorem test_loadRegs : gives (bytes { ready with I := 0x300 } [(0x300, 1), (0x301, 5), (0x302, 6), (0x303, 7)]) 0xF265
    (fun t => t.readV 0 == 1 && t.readV 1 == 5 && t.readV 2 == 6 && t.readV 3 == 0 && t.I == 0x303) := by decide
/-- M18. -/
theorem test_loadRegs_VF : gives (bytes { ready with I := 0x300 } [(0x30F, 0x99)]) 0xFF65
    (fun t => t.readV 0xF == 0x99 && t.I == 0x310) := by decide

/-! ## Keys and timers -/

/-- KT1. -/
theorem test_skp : gives (given ready 0x0020 0) 0xE59E (fun t => t.pc == 0x204) := by decide
/-- KT5: an id above 15 is never pressed. -/
theorem test_skp_above_15 : gives (byRegister (given (regs ready [(4, 0x20)]) 0xFFFF 0)) 0xE49E
    (fun t => t.pc == 0x202) := by decide
/-- KT2. -/
theorem test_sknp : gives (given ready 0x0020 0) 0xE4A1 (fun t => t.pc == 0x204) := by decide
/-- KT2. -/
theorem test_sknp_pressed : gives (given ready 0x0020 0) 0xE5A1 (fun t => t.pc == 0x202) := by decide
/-- KT6: the value before the decay. -/
theorem test_ldVxDT : gives { ready with DT := 4 } 0xF107 (fun t => t.readV 1 == 4 && t.DT == 3) := by decide
/-- KT11: the retry address is the instruction's own. -/
theorem test_ldVxK_waits : gives (given (readyAt 0xFFE) 0 0) 0xF00A (fun t => t.pc == 0xFFE) := by decide
/-- KT9. -/
theorem test_ldVxK : gives (given (readyAt 0x300) 0x0080 0) 0xF20A
    (fun t => t.readV 2 == 7 && t.pc == 0x302) := by decide
/-- KT14. -/
theorem test_ldDTVx : gives (regs ready [(0, 5)]) 0xF015 (fun t => t.DT == 4) := by decide
/-- KT16. -/
theorem test_ldDTVx_wrap : gives (wrapping ready) 0xF015 (fun t => t.DT == 255) := by decide
/-- KT17. -/
theorem test_ldSTVx : gives (regs ready [(3, 10)]) 0xF318 (fun t => t.ST == 9 && t.soundRequest) := by decide
/-- KT18. -/
theorem test_ldSTVx_silent : gives (regs ready [(3, 1)]) 0xF318 (fun t => !t.outputs.soundRequest) := by decide

/-! ## The hypotheses of the statements can be met, clause by clause -/

theorem test_witness_EncodeOfDecode : decodeWord 0x801E = some (.shl 0 1) := by decide

theorem test_witness_KnownWordHasExactlyOneRow :
    (⟨0x8004#16, 0xF00F#16⟩ : Row) ∈ opcodeMap ∧ Row.selectedBy ⟨0x8004#16, 0xF00F#16⟩ 0x8FF4#16 = true ∧
    (decodeWord 0x8FF4).isSome = true := by decide

/-- Both ends of every row: all operand bits 0, and all 1. -/
theorem test_witness_OpcodeMapDecodes : opcodeMap.length = 34 ∧ ∀ r ∈ opcodeMap,
    r.selectedBy r.pattern = true ∧ r.selectedBy (r.pattern ||| ~~~r.mask) = true := by decide

theorem test_witness_StepRunsDecodedInstruction :
    (bytes ready [(0x200, 0x60), (0x201, 0x07)]).halted = false ∧
    (bytes ready [(0x200, 0x60), (0x201, 0x07)]).loaded = true ∧
    (bytes ready [(0x200, 0x60), (0x201, 0x07)]).memRead 0x200 = .ok 0x60#8 ∧
    (bytes ready [(0x200, 0x60), (0x201, 0x07)]).memRead 0x201 = .ok 0x07#8 ∧
    decode [0x60#8, 0x07#8] = .ok (.ldImm 0 7, []) := ⟨rfl, rfl, rfl, rfl, rfl⟩

theorem test_witness_HaltIsSticky : { ready with halted := true }.halted = true := rfl

theorem test_witness_CycleBeforeLoadIsRefused : State.reset.halted = false ∧ State.reset.loaded = false := by decide

theorem test_witness_UnknownWordIsNoOp : ready.halted = false ∧ ready.loaded = true ∧ ready.fetchWord = .ok 0#16 ∧
    decodeWord 0#16 = none := ⟨rfl, rfl, rfl, rfl⟩

theorem test_witness_FetchAboveMemory : (readyAt 0xFFFF).params.addrPolicy = .mask ∧
    ((faulting (readyAt 4094)).params.addrPolicy = .fault ∧ (faulting (readyAt 4094)).pc.toNat ≤ 4094) ∧
    ((faulting (readyAt 4095)).params.addrPolicy = .fault ∧ 4095 ≤ (faulting (readyAt 4095)).pc.toNat ∧
      (faulting (readyAt 4095)).halted = false ∧ (faulting (readyAt 4095)).loaded = true) := by decide

theorem test_witness_LoadedStepAnswersNext : ready.loaded = true ∧ { State.reset with halted := true }.halted = true :=
  ⟨rfl, rfl⟩

theorem test_witness_PcAdvancesUnlessWritten : ∃ t, exec (.ldImm 0 7) ready = .next t ∧ ready.halted = false ∧
    t.halted = false ∧ ¬ writesPc (.ldImm 0 7) := ⟨_, rfl, rfl, rfl, by simp [writesPc]⟩

theorem test_witness_TimersDecayOncePerCycle : ∃ t, ready.halted = false ∧ ready.loaded = true ∧
    ready.fetchWord = .ok 0#16 ∧ step ready = .next t ∧ t.halted = false := ⟨_, rfl, rfl, rfl, rfl, rfl⟩

theorem test_witness_StepKeepsInvariant : ready.Inv ∧ ∃ t, step ready = .next t :=
  ⟨⟨rfl, rfl, fun _ h => absurd h List.not_mem_nil, by decide, rfl, fun _ => rfl⟩, _, rfl⟩

theorem test_witness_LoadKeepsInvariant : State.reset.Inv ∧ ∃ t, State.reset.load [0x60, 0x0A] = .ok t :=
  ⟨⟨rfl, rfl, fun _ h => absurd h List.not_mem_nil, by decide, rfl, fun h => h⟩, _, rfl⟩

/-- A halt in the fetch, and a halt of an instruction. -/
theorem test_witness_HaltIsPrecise :
    (∃ t, step (faulting (readyAt 4095)) = .next t ∧ (faulting (readyAt 4095)).halted = false ∧ t.halted = true) ∧
    ∃ t, step (bytes ready [(0x201, 0xEE)]) = .next t ∧ (bytes ready [(0x201, 0xEE)]).halted = false ∧
      t.halted = true :=
  ⟨⟨halted (faulting (readyAt 4095)) .outOfBoundsAddress none, rfl, rfl, rfl⟩,
    ⟨halted (bytes ready [(0x201, 0xEE)]) .stackUnderflow (some 0x00EE), rfl, rfl, rfl⟩⟩

/-- The three causes; FX65 at the lowest `I` from which it can halt. -/
theorem test_witness_HaltCauses :
    (∃ t, exec .ret ready = .next t ∧ ready.halted = false ∧ t.halted = true) ∧
    (∃ t, exec (.call 0x300) { ready with stack := List.replicate 16 0x206 } = .next t ∧ t.halted = true) ∧
    ∃ t, exec (.loadRegs 0xF) (faulting { ready with I := 4081 }) = .next t ∧ t.halted = true :=
  ⟨⟨halted ready .stackUnderflow (some 0x00EE), rfl, rfl, rfl⟩,
    ⟨halted { ready with stack := List.replicate 16 0x206 } .stackOverflow (some 0x2300), rfl, rfl⟩,
    ⟨halted (faulting { ready with I := 4081 }) .outOfBoundsAddress (some 0xFF65), rfl, rfl⟩⟩

theorem test_witness_RegisterWriteSets :
    ∃ t, exec (.loadRegs 0xE) ready = .next t ∧ ¬ writesV (.loadRegs 0xE) 0xF := ⟨_, rfl, by simp [writesV]⟩

theorem test_witness_IndexWriters : ∃ t, exec (.ldB 0) ready = .next t ∧ ¬ writesI (.ldB 0) :=
  ⟨_, rfl, by simp [writesI]⟩

theorem test_witness_MemoryWriters : ∃ t, exec (.loadRegs 0) ready = .next t ∧
    ∀ x, Instr.loadRegs 0 ≠ .ldB x ∧ Instr.loadRegs 0 ≠ .storeRegs x := ⟨_, rfl, by simp⟩

theorem test_witness_FramebufferAndStackWriters : (∃ t, exec (.call 0x300) ready = .next t ∧
    Instr.call 0x300 ≠ .cls ∧ ∀ x y n, Instr.call 0x300 ≠ .drw x y n) ∧
    ∃ t, exec .cls ready = .next t ∧ Instr.cls ≠ .ret ∧ ∀ nnn, Instr.cls ≠ .call nnn :=
  ⟨⟨_, rfl, by simp, by simp⟩, ⟨_, rfl, by simp, by simp⟩⟩

/-- An instruction that reads the key input but not the random byte, and the converse. -/
theorem test_witness_InputsReadOnlyWhereSaid :
    (∃ t t', exec (.skp 1) (withInputs ready [⟨2, 0⟩]) = .next t ∧ exec (.skp 1) (withInputs ready [⟨2, 7⟩]) = .next t' ∧
      ∀ x nn, Instr.skp 1 ≠ .rnd x nn) ∧
    ∃ t t', exec (.rnd 1 2) (withInputs ready [⟨2, 7⟩]) = .next t ∧ exec (.rnd 1 2) (withInputs ready [⟨0, 7⟩]) = .next t' ∧
      ∀ x, Instr.rnd 1 2 ≠ .skp x ∧ Instr.rnd 1 2 ≠ .sknp x ∧ Instr.rnd 1 2 ≠ .ldVxK x :=
  ⟨⟨_, _, rfl, rfl, by simp⟩, ⟨_, _, rfl, rfl, by simp⟩⟩

/-- Under FAULT the two drawn rows of a 15-row sprite at row 30 end at the last byte of memory. -/
theorem test_witness_DrawTogglesTheSprite : ready.params.addrPolicy = .mask ∧
    ∀ r, rowDrawn ((regs (faulting { ready with I := 4094 }) [(1, 30)]).readV 1).toNat 15 r →
      (regs (faulting { ready with I := 4094 }) [(1, 30)]).I.toNat + r ≤ 4095 := by
  refine ⟨rfl, fun r h => ?_⟩
  have h2 : 30 + r ≤ 31 := h.2
  show 4094 + r ≤ 4095
  omega

theorem test_witness_DrawTwiceRestores : ∃ t u, exec (.drw 0 1 5) { ready with I := 0x50 } = .next t ∧
    exec (.drw 0 1 5) t = .next u ∧ t.readV 0 = ready.readV 0 ∧ t.readV 1 = ready.readV 1 ∧
    ready.halted = false ∧ t.halted = false := by
  obtain ⟨t, ht⟩ : ∃ t, exec (.drw 0 1 5) { ready with I := 0x50 } = .next t := exec_answers_next _ _
  obtain ⟨u, hu⟩ : ∃ u, exec (.drw 0 1 5) t = .next u := exec_answers_next _ t
  refine ⟨t, u, ht, hu, ?_⟩
  rcases exec_drw_cases ht with ⟨d, -, rfl⟩ | ⟨h, -⟩
  · exact ⟨rfl, rfl, rfl, rfl⟩
  · exact absurd h.1 (by decide)

/-- The first address above memory: row 1 of a sprite at 4095, and 4094 + 2, and 4081 + 15. -/
theorem test_witness_OutOfBoundsHalts :
    ((faulting { ready with I := 4095 }).params.addrPolicy = .fault ∧
      (rowDrawn ((faulting { ready with I := 4095 }).readV 0).toNat 2 1 ∧
        4095 < (faulting { ready with I := 4095 }).I.toNat + 1)) ∧
    ((faulting { ready with I := 4094 }).params.addrPolicy = .fault ∧
      4095 < (faulting { ready with I := 4094 }).I.toNat + 2) ∧
    ((faulting { ready with I := 4081 }).params.addrPolicy = .fault ∧
      4095 < (faulting { ready with I := 4081 }).I.toNat + (0xF#4).toNat) :=
  ⟨⟨rfl, ⟨by decide, by decide⟩, by decide⟩, ⟨rfl, by decide⟩, ⟨rfl, by decide⟩⟩

/-- A stack one short of full, and a full one. -/
theorem test_witness_CallPushesReturnAddress :
    { ready with stack := List.replicate 15 0x206 }.params.stackDepth ≠
      some { ready with stack := List.replicate 15 0x206 }.stack.length ∧
    { ready with stack := List.replicate 16 0x206 }.params.stackDepth =
      some { ready with stack := List.replicate 16 0x206 }.stack.length := by decide

theorem test_witness_ReturnPopsAddress : { ready with stack := [0x206] }.stack = 0x206 :: [] ∧ ready.stack = [] := by
  decide

/-- The highest target at which both bytes of the return are in memory. -/
theorem test_witness_CallThenReturn :
    (bytes ready [(0x200, 0x2F), (0x201, 0xFE), (0xFFF, 0xEE)]).halted = false ∧
    (bytes ready [(0x200, 0x2F), (0x201, 0xFE), (0xFFF, 0xEE)]).loaded = true ∧
    (bytes ready [(0x200, 0x2F), (0x201, 0xFE), (0xFFF, 0xEE)]).params.stackDepth ≠ some 0 ∧
    (bytes ready [(0x200, 0x2F), (0x201, 0xFE), (0xFFF, 0xEE)]).fetchWord = .ok (encode (.call 0xFFE)) ∧
    (0xFFE#12).toNat ≤ 4094 ∧
    (bytes ready [(0x200, 0x2F), (0x201, 0xFE), (0xFFF, 0xEE)]).peek 0xFFE = 0x00#8 ∧
    (bytes ready [(0x200, 0x2F), (0x201, 0xFE), (0xFFF, 0xEE)]).peek 0xFFF = 0xEE#8 :=
  ⟨rfl, rfl, by decide, rfl, by decide, by decide, by decide⟩

/-- MASK, and FAULT with the last byte at 4095; an address of each digit, and one outside them. -/
theorem test_witness_StoreDecimal : ready.params.addrPolicy = .mask ∧
    (faulting { ready with I := 4093 }).I.toNat + 2 ≤ 4095 ∧
    resolve (faulting ready).params 4093 = .ok 4093 ∧ resolve (faulting ready).params (4093 + 1) = .ok 4094 ∧
    resolve (faulting ready).params (4093 + 2) = .ok 4095 ∧
    ∀ k, k ≤ 2 → resolve (faulting ready).params (4093 + k) ≠ .ok 0 := by
  refine ⟨rfl, by decide, rfl, rfl, rfl, fun k hk h => ?_⟩
  have := (resolve_ok_iff.1 h).2
  omega

/-- MASK, and FAULT with all 16 bytes up to 4095; the last of them, and an address outside them. -/
theorem test_witness_StoreRegisters : ready.params.addrPolicy = .mask ∧
    (faulting { ready with I := 4080 }).I.toNat + (0xF#4).toNat ≤ 4095 ∧
    resolve (faulting ready).params (4080 + (0xF#4).toNat) = .ok 4095 ∧
    ∀ k, k ≤ (0xF#4).toNat → resolve (faulting ready).params (4080 + k) ≠ .ok 4079 := by
  refine ⟨rfl, by decide, rfl, fun k hk h => ?_⟩
  have hk' : k ≤ 15 := hk
  have := (resolve_ok_iff.1 h).2
  omega

theorem test_witness_LoadRegisters : ready.params.addrPolicy = .mask ∧
    (faulting { ready with I := 4081 }).I.toNat + (0xE#4).toNat ≤ 4095 ∧
    (0xE#4).toNat ≤ (0xE#4).toNat ∧ resolve (faulting ready).params (4081 + (0xE#4).toNat) = .ok 4095 ∧
    (0xE#4).toNat < (0xF#4).toNat := ⟨rfl, by decide, by decide, rfl, by decide⟩

/-- The last address, and under MASK one above it and another that resolves to the same byte. -/
theorem test_witness_WriteThenRead : resolve (faulting ready).params 4095 = .ok 4095 ∧
    resolve ready.params 0x11FFF = .ok 4095 ∧ resolve ready.params 0x1FFF = .ok 4095 := ⟨rfl, rfl, rfl⟩

theorem test_witness_SetTimers : 0 < ((regs ready [(0, 1)]).readV 0).toNat ∧
    (ready.readV 0 = 0#8 ∧ ready.params.timerDecay = .saturate) := by decide

theorem test_witness_WaitForKey : (given ready 0 0).input.keys = 0#16 ∧
    (given ready 0x8001 0).input.keys ≠ 0#16 := by decide

theorem test_witness_FirstKeyIsAnyAdmissible : Admissible (firstKeyBy fun _ => 0xF) :=
  fun keys => firstKeyBy_spec _ keys

/-- L1 and L2: the longest image that loads, and one byte more. -/
theorem test_witness_LoadPlacesImage : (List.replicate 3584 0x60#8).length ≤ 3584 ∧
    3584 < (List.replicate 3585 0x60#8).length := by
  rw [List.length_replicate, List.length_replicate]
  exact ⟨Nat.le_refl _, Nat.lt_succ_self _⟩

/-- The conditions on a register number, a bit and an immediate in BitwiseLogic and RandomAndImmediate. -/
theorem test_witness_BitwiseLogic_RandomAndImmediate : (0xF : Nibble) ≠ 0 ∧ (0 : Byte) = 0#8 := by decide

/-- KeySkips: key 15 pressed, and 16, which is never pressed. -/
theorem test_witness_KeySkips :
    (15 ≤ 15 ∧ (given ready 0x8000 0).input.keys.toNat / 2 ^ 15 % 2 = 1) ∧ ¬ (16 ≤ 15) ∧
    (byRegister (regs ready [(4, 16)])).keyId 4 = 16 := by decide

/-- ClearScreen, DrawTogglesTheSprite, OutputsBetweenCycles: the last pixel. -/
theorem test_witness_pixels : 31 ≤ 31 ∧ 63 ≤ 63 ∧ { ready with fb := 1#2048 <<< 2047 }.pixel 31 63 = true := by
  decide +kernel

theorem test_witness_ResetValues : (0 : Nat) < 80 ∧ (79 : Nat) < 80 ∧ (0x4F < 0x50) ∧ (0x9F < 0xA0) := by decide

end Sys2Proof.Tests
end

section
/-! PROOFS. The state (spec/10_state.md): which instruction writes which part of it (R36), and the invariant. -/

namespace Sys2Proof.Machine

open Sys2Proof.Claims

/-! ## The frame of an instruction (R36) -/

/-- The instructions that may write the stack (R26). -/
def writesStack (i : Instr) : Prop := i = .ret ∨ ∃ nnn, i = .call nnn

/-- The instructions that may write the framebuffer (R28). -/
def writesFb (i : Instr) : Prop := i = .cls ∨ ∃ x y n, i = .drw x y n

/-- The instructions that may write memory (spec/20_memory.md R51). -/
def writesMem (i : Instr) : Prop := ∃ x, i = .ldB x ∨ i = .storeRegs x

/-- The write-set table of R36 for one completed effect: `u` is what the effect of `i` makes of `s.advance`, before
the end of the cycle, and each part of `s` that `i` has no right to write is in it as the advance left it. -/
structure Frame (i : Instr) (s u : State) : Prop where
  V : ∀ r, ¬ writesV i r → u.readV r = s.readV r
  I : ¬ writesI i → u.I = s.I
  pc : ¬ writesPc i → u.pc = advancedPc s.pc
  stack : ¬ writesStack i → u.stack = s.stack
  fb : ¬ writesFb i → u.fb = s.fb
  mem : ¬ writesMem i → u.mem = s.mem
  DT : (∀ x, i ≠ .ldDTVx x) → u.DT = s.DT
  ST : (∀ x, i ≠ .ldSTVx x) → u.ST = s.ST
  halted : u.halted = s.halted
  fault : u.fault = s.fault
  params : u.params = s.params
  loaded : u.loaded = s.loaded
  inputs : u.inputs = s.inputs
  inputNo : u.inputNo = s.inputNo

section
variable {i : Instr} {s u t : State}

/-- The advance alone is within every instruction's frame. -/
theorem frame_advance (i : Instr) (s : State) : Frame i s s.advance := by constructor <;> intros <;> rfl

/-! Each update of the state stays within the frame of an instruction that may make it. -/

theorem Frame.writeV (h : Frame i s u) {x : Nibble} (hx : writesV i x) (b : Byte) : Frame i s (u.writeV x b) :=
  { h with
    V := fun r hr => by
      have hne : r ≠ x := fun e => hr (e ▸ hx)
      rw [State.readV_writeV, if_neg hne, h.V r hr] }

theorem Frame.writeWithFlag (h : Frame i s u) {x : Nibble} (hx : writesV i x) (hf : writesV i 0xF#4) (b : Byte)
    (f : Bool) : Frame i s (u.writeWithFlag x b f) :=
  (h.writeV hx b).writeV hf (flagByte f)

theorem Frame.withV (h : Frame i s u) {v : Vector Byte 16}
    (hv : ∀ r, ¬ writesV i r → (u.withV v).readV r = u.readV r) : Frame i s (u.withV v) :=
  { h with V := fun r hr => (hv r hr).trans (h.V r hr) }

theorem Frame.setI (h : Frame i s u) (hi : writesI i) (a : Word) : Frame i s (u.setI a) :=
  { h with I := fun hn => absurd hi hn }

theorem Frame.setPc (h : Frame i s u) (hi : writesPc i) (a : Word) : Frame i s (u.setPc a) :=
  { h with pc := fun hn => absurd hi hn }

theorem Frame.setStack (h : Frame i s u) (hi : writesStack i) (l : List Word) : Frame i s (u.setStack l) :=
  { h with stack := fun hn => absurd hi hn }

theorem Frame.setFb (h : Frame i s u) (hi : writesFb i) (d : BitVec 2048) : Frame i s (u.setFb d) :=
  { h with fb := fun hn => absurd hi hn }

theorem Frame.withMem (h : Frame i s u) (hi : writesMem i) (m : Memory) : Frame i s (u.withMem m) :=
  { h with mem := fun hn => absurd hi hn }

theorem Frame.setDT {x : Nibble} (h : Frame (.ldDTVx x) s u) (b : Byte) : Frame (.ldDTVx x) s (u.setDT b) :=
  { h with DT := fun hn => absurd rfl (hn x) }

theorem Frame.setST {x : Nibble} (h : Frame (.ldSTVx x) s u) (b : Byte) : Frame (.ldSTVx x) s (u.setST b) :=
  { h with ST := fun hn => absurd rfl (hn x) }

/-! ## What an instruction can do -/

/-- A completed cycle whose effect is within the frame of the instruction. -/
def CompletesInFrame (i : Instr) (s t : State) : Prop := ∃ u, Frame i s u ∧ t = u.endCycle

/-- An instruction whose cycle is known to end in one state: it completes in its frame where that state does. -/
theorem Frame.completes (hf : Frame i s u) (h : exec i s = .next t) (he : exec i s = .next u.endCycle) :
    CompletesInFrame i s t :=
  ⟨u, hf, Host.Outcome.next.inj (h.symm.trans he)⟩

/-- The shape of every skip: the old state with a new `pc`. -/
theorem exec_setPc_completes (hi : writesPc i) {a : Word} (he : exec i s = .next (s.setPc a).endCycle)
    (h : exec i s = .next t) : CompletesInFrame i s t :=
  ((frame_advance i s).setPc hi a).completes h he

theorem exec_ldVxK_completes {x : Nibble} (h : exec (.ldVxK x) s = .next t) : CompletesInFrame (.ldVxK x) s t := by
  have base := frame_advance (.ldVxK x) s
  cases hk : firstKey s.input.keys with
  | none => exact (base.setPc (by simp [writesPc]) s.pc).completes h (exec_ldVxK_none hk)
  | some k => exact (base.writeV (x := x) rfl _).completes h (exec_ldVxK_some hk)

/-- The cycle of an instruction halts, and leaves the state before it with the halt and its record, or it completes
with no write but those R36 gives the instruction. -/
theorem exec_cases (h : exec i s = .next t) :
    (∃ k, t = s.takeHalt k (some (encode i))) ∨ CompletesInFrame i s t := by
  have base := frame_advance i s
  cases i with
  | ret =>
    rcases exec_ret_cases h with ⟨v, rest, -, rfl⟩ | ⟨-, rfl⟩
    · exact .inr ⟨_, (base.setStack (.inl rfl) rest).setPc (.inl rfl) v, rfl⟩
    · exact .inl ⟨_, rfl⟩
  | call nnn =>
    rcases exec_call_cases h with ⟨-, rfl⟩ | ⟨-, rfl⟩
    · exact .inr ⟨_, (base.setStack (.inr ⟨nnn, rfl⟩) _).setPc (by simp [writesPc]) _, rfl⟩
    · exact .inl ⟨_, rfl⟩
  | drw x y n =>
    rcases exec_drw_cases h with ⟨d, -, rfl⟩ | ⟨-, rfl⟩
    · exact .inr ⟨_, (base.setFb (.inr ⟨x, y, n, rfl⟩) d.fb).writeV (x := 0xF#4) rfl _, rfl⟩
    · exact .inl ⟨_, rfl⟩
  | ldB x =>
    rcases exec_ldB_cases h with ⟨m, -, -, rfl⟩ | ⟨-, rfl⟩
    · exact .inr ⟨_, base.withMem ⟨x, .inl rfl⟩ m, rfl⟩
    · exact .inl ⟨_, rfl⟩
  | storeRegs x =>
    rcases exec_storeRegs_cases h with ⟨m, -, -, rfl⟩ | ⟨-, rfl⟩
    · exact .inr ⟨_, (base.withMem ⟨x, .inr rfl⟩ m).setI (by simp [writesI]) _, rfl⟩
    · exact .inl ⟨_, rfl⟩
  | loadRegs x =>
    rcases exec_loadRegs_cases h with ⟨v, -, hv, rfl⟩ | ⟨-, rfl⟩
    · exact .inr ⟨_, (base.withV fun r hr => hv r (Nat.lt_of_not_le hr)).setI (by simp [writesI]) _, rfl⟩
    · exact .inl ⟨_, rfl⟩
  | cls => exact .inr ((base.setFb (.inl rfl) 0#2048).completes h rfl)
  | jp nnn | jpV0 nnn => exact .inr ((base.setPc (by simp [writesPc]) _).completes h rfl)
  | seImm x nn => exact .inr (exec_setPc_completes (by simp [writesPc]) (exec_seImm x nn s) h)
  | sneImm x nn => exact .inr (exec_setPc_completes (by simp [writesPc]) (exec_sneImm x nn s) h)
  | seReg x y => exact .inr (exec_setPc_completes (by simp [writesPc]) (exec_seReg x y s) h)
  | sneReg x y => exact .inr (exec_setPc_completes (by simp [writesPc]) (exec_sneReg x y s) h)
  | skp x => exact .inr (exec_setPc_completes (by simp [writesPc]) (exec_skp x s) h)
  | sknp x => exact .inr (exec_setPc_completes (by simp [writesPc]) (exec_sknp x s) h)
  | ldImm x _ | addImm x _ | ldReg x _ | orReg x _ | andReg x _ | xorReg x _ | rnd x _ | ldVxDT x =>
    exact .inr ((base.writeV (x := x) rfl _).completes h rfl)
  | addReg x _ | subReg x _ | shr x _ | subnReg x _ | shl x _ =>
    exact .inr ((base.writeWithFlag (x := x) (.inl rfl) (.inr rfl) _ _).completes h rfl)
  | ldI nnn | addI x | ldF x => exact .inr ((base.setI (by simp [writesI]) _).completes h rfl)
  | ldVxK x => exact .inr (exec_ldVxK_completes h)
  | ldDTVx x => exact .inr ((base.setDT _).completes h rfl)
  | ldSTVx x => exact .inr ((base.setST _).completes h rfl)

end

/-! ## The write sets -/

/-- Settles O14: the halted case is excluded, and a completed cycle keeps the advanced `pc`. -/
theorem pcAdvancesUnlessWritten : Obligations.PcAdvancesUnlessWritten := by
  intro i s t h _ ht hi
  rcases exec_cases h with ⟨k, rfl⟩ | ⟨u, hu, rfl⟩
  · cases ht
  · exact hu.pc hi

/-- Settles O22: a halt keeps every register, and a completed cycle those outside the write set. -/
theorem registerWriteSets : Obligations.RegisterWriteSets := by
  intro i s t r h hr
  rcases exec_cases h with ⟨k, rfl⟩ | ⟨u, hu, rfl⟩
  · rfl
  · exact hu.V r hr

/-- Settles O23, by the frame of the instruction. -/
theorem indexWriters : Obligations.IndexWriters := by
  intro i s t h hi
  rcases exec_cases h with ⟨k, rfl⟩ | ⟨u, hu, rfl⟩
  · rfl
  · exact hu.I hi

theorem exec_stack_of_not_writesStack {i : Instr} {s t : State} (h : exec i s = .next t) (hi : ¬ writesStack i) :
    t.stack = s.stack := by
  rcases exec_cases h with ⟨k, rfl⟩ | ⟨u, hu, rfl⟩
  · rfl
  · exact hu.stack hi

theorem exec_fb_of_not_writesFb {i : Instr} {s t : State} (h : exec i s = .next t) (hi : ¬ writesFb i) :
    t.fb = s.fb := by
  rcases exec_cases h with ⟨k, rfl⟩ | ⟨u, hu, rfl⟩
  · rfl
  · exact hu.fb hi

theorem exec_mem_of_not_writesMem {i : Instr} {s t : State} (h : exec i s = .next t) (hi : ¬ writesMem i) :
    t.mem = s.mem := by
  rcases exec_cases h with ⟨k, rfl⟩ | ⟨u, hu, rfl⟩
  · rfl
  · exact hu.mem hi

theorem exec_params {i : Instr} {s t : State} (h : exec i s = .next t) : t.params = s.params := by
  rcases exec_cases h with ⟨k, rfl⟩ | ⟨u, hu, rfl⟩
  · rfl
  · exact hu.params

/-- Settles O25, by the frame of the instruction. -/
theorem framebufferAndStackWriters : Obligations.FramebufferAndStackWriters := by
  intro i s t h
  refine ⟨fun hcls hdrw => exec_fb_of_not_writesFb h ?_, fun hret hcall => exec_stack_of_not_writesStack h ?_⟩
  · rintro (hi | ⟨x, y, n, hi⟩)
    · exact hcls hi
    · exact hdrw x y n hi
  · rintro (hi | ⟨nnn, hi⟩)
    · exact hret hi
    · exact hcall nnn hi

/-! ## What a step can do -/

/-- A step that answers a next state: a halted core stays as it is; a loaded one halts in the fetch, advances past an
unknown word, or runs the instruction it fetched (spec/40_cycle.md R90). -/
theorem step_cases {s t : State} (h : step s = .next t) :
    (s.halted = true ∧ t = s) ∨
      (s.halted = false ∧ s.loaded = true ∧
        ((∃ k, s.fetchWord = .error k ∧ t = s.takeHalt k none) ∨
          ∃ w, s.fetchWord = .ok w ∧
            ((decodeWord w = none ∧ t = s.advance.endCycle) ∨ ∃ i, decodeWord w = some i ∧ exec i s = .next t))) := by
  unfold step cycle at h
  cases hh : s.halted with
  | true =>
    rw [hh, if_pos rfl] at h
    exact .inl ⟨rfl, (Host.Outcome.next.inj h).symm⟩
  | false =>
    refine .inr ⟨rfl, ?_⟩
    cases hl : s.loaded with
    | false => simp [hh, hl] at h
    | true =>
      refine ⟨rfl, ?_⟩
      simp only [hh, hl, Bool.false_eq_true, if_false, Bool.not_true] at h
      cases hw : s.fetchWord with
      | error k => rw [hw] at h; exact .inl ⟨k, rfl, (Host.Outcome.next.inj h).symm⟩
      | ok w =>
        rw [hw] at h
        refine .inr ⟨w, rfl, ?_⟩
        cases hd : decodeWord w with
        | none => simp only [hd] at h; exact .inl ⟨rfl, (Host.Outcome.next.inj h).symm⟩
        | some i => simp only [hd] at h; exact .inr ⟨i, rfl, h⟩

/-! ## The invariant, part by part -/

theorem State.stackFits_iff (s : State) :
    s.stackFits = true ↔ ∀ d, s.params.stackDepth = some d → s.stack.length ≤ d := by
  unfold State.stackFits
  cases s.params.stackDepth <;> simp

/-- The part of the invariant that speaks of the stack: its depth and its return addresses. -/
def State.StackOk (s : State) : Prop := s.stackFits = true ∧ ∀ a ∈ s.stack, a.toNat ≤ 4095

section
variable {i : Instr} {s t : State}

theorem exec_keeps_mem_wf (h : exec i s = .next t) (hm : s.mem.wf s.params.font = true) :
    t.mem.wf t.params.font = true := by
  rw [exec_params h]
  by_cases hi : writesMem i
  · rcases hi with ⟨x, rfl | rfl⟩
    · rcases exec_ldB_cases h with ⟨m, -, hw, rfl⟩ | ⟨-, rfl⟩
      · exact hw hm
      · exact hm
    · rcases exec_storeRegs_cases h with ⟨m, -, hw, rfl⟩ | ⟨-, rfl⟩
      · exact hw hm
      · exact hm
  · rw [exec_mem_of_not_writesMem h hi]; exact hm

theorem State.StackOk.of_eq (h : s.StackOk) (hp : t.params = s.params) (hs : t.stack = s.stack) : t.StackOk := by
  unfold State.StackOk State.stackFits at *
  rw [hp, hs]; exact h

/-- A return leaves the stack shorter. -/
theorem exec_ret_keeps_stackOk (h : exec .ret s = .next t) (hs : s.StackOk) : t.StackOk := by
  obtain ⟨hfits, haddr⟩ := hs
  rw [State.stackFits_iff] at hfits
  rcases exec_ret_cases h with ⟨v, rest, hst, rfl⟩ | ⟨-, rfl⟩
  · rw [hst] at hfits haddr
    exact ⟨(State.stackFits_iff _).2 fun d hd => Nat.le_of_succ_le (hfits d hd),
      fun a ha => haddr a (List.mem_cons_of_mem _ ha)⟩
  · exact ⟨(State.stackFits_iff _).2 hfits, haddr⟩

/-- A call pushes an advanced address, at most 4095, and only onto a stack that is not full. -/
theorem exec_call_keeps_stackOk {nnn : Addr} (h : exec (.call nnn) s = .next t) (hs : s.StackOk) : t.StackOk := by
  obtain ⟨hfits, haddr⟩ := hs
  rw [State.stackFits_iff] at hfits
  rcases exec_call_cases h with ⟨hroom, rfl⟩ | ⟨-, rfl⟩
  · refine ⟨(State.stackFits_iff _).2 fun d hd => ?_, List.forall_mem_cons.2 ⟨advancedPc_le s.pc, haddr⟩⟩
    have hne : s.stack.length ≠ d := fun e => hroom (e ▸ hd)
    exact Nat.lt_of_le_of_ne (hfits d hd) hne
  · exact ⟨(State.stackFits_iff _).2 hfits, haddr⟩

theorem exec_keeps_stackOk (h : exec i s = .next t) (hs : s.StackOk) : t.StackOk := by
  by_cases hi : writesStack i
  · rcases hi with rfl | ⟨nnn, rfl⟩
    · exact exec_ret_keeps_stackOk h hs
    · exact exec_call_keeps_stackOk h hs
  · exact hs.of_eq (exec_params h) (exec_stack_of_not_writesStack h hi)

/-! ### The bound of `pc` -/

/-- An address immediate is at most 4095. -/
theorem addr_setWidth_le (nnn : Addr) : (nnn.setWidth 16).toNat ≤ 4095 := by
  have := nnn.isLt
  rw [BitVec.toNat_setWidth]; omega

/-- The highest target of BNNN is 0xFFF + 0xFF (spec/42_control_flow.md R137). -/
theorem jpV0Target_le (nnn : Addr) (b : Byte) : (nnn.setWidth 16 + b.setWidth 16).toNat ≤ 0x10FE := by
  have := nnn.isLt
  have := b.isLt
  simp only [BitVec.toNat_add, BitVec.toNat_setWidth]
  omega

/-- The highest address after a skip is 4097 (spec/42_control_flow.md R138). -/
theorem exec_skip_pc_le {c : Bool} (he : exec i s = .next (s.setPc (skipTarget c s.pc)).endCycle)
    (h : exec i s = .next t) : t.pc.toNat ≤ 0x10FE := by
  obtain rfl := Host.Outcome.next.inj (h.symm.trans he)
  have := advancedPc_le s.pc
  have : (skipTarget c s.pc).toNat ≤ (advancedPc s.pc).toNat + 2 := by
    rw [skipTarget_toNat]; split <;> omega
  show (skipTarget c s.pc).toNat ≤ 0x10FE
  omega

theorem exec_ret_pc_le (h : exec .ret s = .next t) (hs : s.StackOk) (hp : s.pc.toNat ≤ 0x10FE) :
    t.pc.toNat ≤ 0x10FE := by
  rcases exec_ret_cases h with ⟨v, rest, hst, rfl⟩ | ⟨-, rfl⟩
  · exact (hs.2 v (hst ▸ List.mem_cons_self)).trans (by decide)
  · exact hp

theorem exec_call_pc_le {nnn : Addr} (h : exec (.call nnn) s = .next t) (hp : s.pc.toNat ≤ 0x10FE) :
    t.pc.toNat ≤ 0x10FE := by
  rcases exec_call_cases h with ⟨-, rfl⟩ | ⟨-, rfl⟩
  · exact (addr_setWidth_le nnn).trans (by decide)
  · exact hp

theorem exec_ldVxK_pc_le {x : Nibble} (h : exec (.ldVxK x) s = .next t) (hp : s.pc.toNat ≤ 0x10FE) :
    t.pc.toNat ≤ 0x10FE := by
  cases hk : firstKey s.input.keys with
  | none => obtain rfl := Host.Outcome.next.inj (h.symm.trans (exec_ldVxK_none hk)); exact hp
  | some k =>
    obtain rfl := Host.Outcome.next.inj (h.symm.trans (exec_ldVxK_some hk))
    exact (advancedPc_le s.pc).trans (by decide)

/-- After an instruction `pc` is an advanced address, or what one of the writers of `pc` makes it. -/
theorem exec_pc_le (h : exec i s = .next t) (hs : s.StackOk) (hp : s.pc.toNat ≤ 0x10FE) : t.pc.toNat ≤ 0x10FE := by
  by_cases hi : writesPc i
  · rcases hi with rfl | ⟨nnn, rfl | rfl | rfl⟩ | ⟨x, nn, rfl | rfl⟩ | ⟨x, y, rfl | rfl⟩ | ⟨x, rfl | rfl | rfl⟩
    · exact exec_ret_pc_le h hs hp
    · obtain rfl := Host.Outcome.next.inj h; exact (addr_setWidth_le nnn).trans (by decide)
    · exact exec_call_pc_le h hp
    · obtain rfl := Host.Outcome.next.inj h; exact jpV0Target_le nnn (s.readV 0#4)
    · exact exec_skip_pc_le (exec_seImm x nn s) h
    · exact exec_skip_pc_le (exec_sneImm x nn s) h
    · exact exec_skip_pc_le (exec_seReg x y s) h
    · exact exec_skip_pc_le (exec_sneReg x y s) h
    · exact exec_skip_pc_le (exec_skp x s) h
    · exact exec_skip_pc_le (exec_sknp x s) h
    · exact exec_ldVxK_pc_le h hp
  · rcases exec_cases h with ⟨k, rfl⟩ | ⟨u, hu, rfl⟩
    · exact hp
    · have hpc : u.endCycle.pc = advancedPc s.pc := hu.pc hi
      rw [hpc]; exact (advancedPc_le s.pc).trans (by decide)

/-! ### The halt record -/

/-- A fault record is there exactly when the core has halted, and only a loaded core has. -/
def State.HaltOk (s : State) : Prop := s.halted = s.fault.isSome ∧ (s.halted = true → s.loaded = true)

theorem exec_keeps_haltOk (h : exec i s = .next t) (hl : s.loaded = true) (hh : s.HaltOk) : t.HaltOk := by
  rcases exec_cases h with ⟨k, rfl⟩ | ⟨u, hu, rfl⟩
  · exact ⟨rfl, fun _ => hl⟩
  · obtain ⟨hrec, hload⟩ := hh
    refine ⟨?_, fun _ => hu.loaded.trans hl⟩
    show u.halted = u.fault.isSome
    rw [hu.halted, hu.fault, hrec]

/-! ### The whole invariant -/

theorem State.inv_iff (s : State) :
    s.Inv ↔ s.mem.wf s.params.font = true ∧ s.StackOk ∧ s.pc.toNat ≤ 0x10FE ∧ s.HaltOk := by
  simp only [State.Inv, State.StackOk, State.HaltOk, and_assoc]

theorem exec_keeps_inv (h : exec i s = .next t) (hl : s.loaded = true) (hs : s.Inv) : t.Inv := by
  obtain ⟨hmem, hstack, hpc, hhalt⟩ := s.inv_iff.1 hs
  exact t.inv_iff.2
    ⟨exec_keeps_mem_wf h hmem, exec_keeps_stackOk h hstack, exec_pc_le h hstack hpc, exec_keeps_haltOk h hl hhalt⟩

theorem State.Inv.takeHalt (hs : s.Inv) (hl : s.loaded = true) (k : HaltKind) (w : Option Word) :
    (s.takeHalt k w).Inv := by
  obtain ⟨hmem, hfits, haddr, hpc, -⟩ := hs
  exact ⟨hmem, hfits, haddr, hpc, rfl, fun _ => hl⟩

theorem State.Inv.advance_endCycle (hs : s.Inv) : s.advance.endCycle.Inv := by
  obtain ⟨hmem, hfits, haddr, -, hhalt⟩ := hs
  exact ⟨hmem, hfits, haddr, (advancedPc_le s.pc).trans (by decide), hhalt⟩

end

/-- Settles O17, by the cases of a step: each of its four outcomes keeps the invariant. -/
theorem stepKeepsInvariant : Obligations.StepKeepsInvariant := by
  intro s t hs h
  rcases step_cases h with ⟨-, rfl⟩ | ⟨-, hl, ⟨k, -, rfl⟩ | ⟨w, -, ⟨-, rfl⟩ | ⟨i, -, hi⟩⟩⟩
  · exact hs
  · exact hs.takeHalt hl k none
  · exact hs.advance_endCycle
  · exact exec_keeps_inv hi hl hs

/-! ## Reset (R33) -/

/-- Settles O18: memory lists nothing, the stack is empty and `pc` is 0. -/
theorem invariantAtReset : Obligations.InvariantAtReset := by
  intro p
  refine ⟨State.reset_memory_wf p, (State.stackFits_iff _).2 fun d _ => Nat.zero_le d, fun a ha => ?_,
    Nat.zero_le _, rfl, fun hh => ?_⟩
  · exact absurd ha List.not_mem_nil
  · cases hh

theorem State.peek_resetWith (p : Params) (a : Nat) : (State.resetWith p).peek a = resetByte p.font a := rfl

theorem resetByte_font (font : Font) {k : Nat} (h : k < 80) : resetByte font (0x50 + k) = font[k] := by
  simp [resetByte, fontBase, h]

theorem resetByte_outside_font (font : Font) {a : Nat} (h : a < 0x50 ∨ 0x9F < a) : resetByte font a = 0#8 := by
  unfold resetByte fontBase
  split
  · have hn : ¬ a - 0x50 < 80 := by omega
    simp [hn]
  · rfl

theorem State.readV_resetWith (p : Params) (r : Nibble) : (State.resetWith p).readV r = 0#8 := by
  simp [State.readV, State.resetWith]

theorem State.pixel_resetWith (p : Params) (y x : Nat) : (State.resetWith p).pixel y x = false := by
  simp [State.pixel, pixelOf, State.resetWith]

/-- Settles O58, from the bytes that reset puts in memory and the fields of the reset state. -/
theorem resetValues : Obligations.ResetValues := fun p =>
  ⟨State.readV_resetWith p, rfl, rfl, rfl, rfl, rfl, fun y x _ _ => State.pixel_resetWith p y x, rfl, rfl, rfl,
    fun k hk => (State.peek_resetWith p (0x50 + k)).trans (resetByte_font p.font hk),
    fun a ha => (State.peek_resetWith p a).trans (resetByte_outside_font p.font ha)⟩

end Sys2Proof.Machine
end

section
/-! PROOFS. Memory (spec/20_memory.md): what a byte access does at a resolved address, and which instruction writes
memory. -/

namespace Sys2Proof.Machine

open Sys2Proof.Claims

/-! ## Byte accesses at a resolved address (R52, R53) -/

theorem State.memRead_of_resolve (s : State) {a r : Nat} (h : resolve s.params a = .ok r) :
    s.memRead a = .ok (s.peek r) := by
  rw [State.memRead, h]

theorem State.memWrite_of_resolve (s : State) {a r : Nat} (v : Byte) (h : resolve s.params a = .ok r) :
    s.memWrite a v = .ok (s.poke r v) := by
  rw [State.memWrite, h]

/-- A read sees the byte just poked through every address that resolves to it, aliases under MASK included. -/
theorem State.memRead_poke_of_resolve (s : State) {b r : Nat} (v : Byte) (h : resolve s.params b = .ok r) :
    (s.poke r v).memRead b = .ok v := by
  rw [State.memRead_of_resolve (s.poke r v) h, State.peek_poke, if_pos rfl]

/-- Settles O52: a write pokes the resolved byte, and a poke changes that byte of memory alone. -/
theorem writeThenRead : Obligations.WriteThenRead := by
  intro s a r v h
  refine ⟨s.memRead_of_resolve h, s.poke r v, s.memWrite_of_resolve v h, ?_, fun b hb => ?_,
    fun b => s.memRead_poke_of_resolve v, rfl⟩
  · rw [State.peek_poke, if_pos rfl]
  · rw [State.peek_poke, if_neg hb]

/-! ## The writers of memory (R51) -/

/-- A state with the same parameters and the same memory list reads every byte alike. -/
theorem sameMemory_of_mem_eq {s t : State} (hp : t.params = s.params) (hm : t.mem = s.mem) : SameMemory s t := by
  intro a
  rw [State.peek, State.peek, hp, hm]

/-- Settles O24: outside `writesMem` the frame keeps the memory list, and no instruction changes the parameters,
whose font gives the bytes not listed. -/
theorem memoryWriters : Obligations.MemoryWriters := by
  intro i s t h hi
  refine sameMemory_of_mem_eq (exec_params h) (exec_mem_of_not_writesMem h ?_)
  rintro ⟨x, hx | hx⟩
  · exact (hi x).1 hx
  · exact (hi x).2 hx

end Sys2Proof.Machine
end

section
/-! PROOFS. The encoding (spec/30_encoding.md): the domain of a top nibble, the round trip between instructions and
words, the opcode map, and the unknown words; then what a step of a loaded core answers. -/

namespace Sys2Proof

open Sys2Proof.Claims

/-! ## The domain of a top nibble (R73, R74) -/

/-- The top nibbles of domain 2, the domain of the top nibble itself (R74). -/
def topNibbleOps : List Nibble := [0x1#4, 0x2#4, 0x3#4, 0x4#4, 0x6#4, 0x7#4, 0xA#4, 0xB#4, 0xC#4, 0xD#4]

/-- The top nibbles of domain 3, the mask 0xF00F (R74). -/
def maskF00FOps : List Nibble := [0x5#4, 0x8#4, 0x9#4]

/-- The top nibbles of domain 4, the mask 0xF0FF (R74). -/
def maskF0FFOps : List Nibble := [0xE#4, 0xF#4]

theorem op_in_some_domain :
    ∀ op : Nibble, op = 0#4 ∨ op ∈ topNibbleOps ∨ op ∈ maskF00FOps ∨ op ∈ maskF0FFOps := by decide

theorem zero_in_no_other_domain : 0#4 ∉ topNibbleOps ∧ 0#4 ∉ maskF00FOps ∧ 0#4 ∉ maskF0FFOps := by decide

theorem topNibbleOps_in_no_other_domain :
    ∀ op ∈ topNibbleOps, op ≠ 0#4 ∧ op ∉ maskF00FOps ∧ op ∉ maskF0FFOps := by decide

theorem maskF00FOps_in_no_other_domain :
    ∀ op ∈ maskF00FOps, op ≠ 0#4 ∧ op ∉ topNibbleOps ∧ op ∉ maskF0FFOps := by decide

theorem maskF0FFOps_in_no_other_domain :
    ∀ op ∈ maskF0FFOps, op ≠ 0#4 ∧ op ∉ topNibbleOps ∧ op ∉ maskF00FOps := by decide

theorem ite_some_eq_none {α : Type} {c : Prop} [Decidable c] {a : α} {o : Option α} :
    (if c then some a else o) = none ↔ ¬ c ∧ o = none := by
  by_cases hc : c <;> simp [hc]

section
variable {w : Word} {i : Instr}

theorem decodeTopNibble_eq_none_iff : decodeTopNibble w = none ↔ fieldOp w ∉ topNibbleOps := by
  simp [decodeTopNibble, ite_some_eq_none, topNibbleOps]

theorem decodeMaskF00F_of_op_not_mem (h : fieldOp w ∉ maskF00FOps) : decodeMaskF00F w = none := by
  simp only [maskF00FOps, List.mem_cons, List.not_mem_nil, or_false, not_or] at h
  simp [decodeMaskF00F_fields, h]

theorem decodeMaskF0FF_of_op_not_mem (h : fieldOp w ∉ maskF0FFOps) : decodeMaskF0FF w = none := by
  simp only [maskF0FFOps, List.mem_cons, List.not_mem_nil, or_false, not_or] at h
  simp [decodeMaskF0FF_fields, h]

/-! Each word is decoded by the one domain of its top nibble: the other three answer `none`. -/

theorem decodeWord_of_op_zero (h : fieldOp w = 0#4) : decodeWord w = decodeFullWord w := by
  obtain ⟨h2, h3, h4⟩ := h ▸ zero_in_no_other_domain
  simp [decodeWord, decodeTopNibble_eq_none_iff.2 h2, decodeMaskF00F_of_op_not_mem h3,
    decodeMaskF0FF_of_op_not_mem h4]

theorem decodeWord_of_topNibble (h : fieldOp w ∈ topNibbleOps) : decodeWord w = decodeTopNibble w := by
  obtain ⟨h1, h3, h4⟩ := topNibbleOps_in_no_other_domain _ h
  simp [decodeWord, decodeFullWord_of_op_ne h1, decodeMaskF00F_of_op_not_mem h3, decodeMaskF0FF_of_op_not_mem h4]

theorem decodeWord_of_maskF00F (h : fieldOp w ∈ maskF00FOps) : decodeWord w = decodeMaskF00F w := by
  obtain ⟨h1, h2, h4⟩ := maskF00FOps_in_no_other_domain _ h
  simp [decodeWord, decodeFullWord_of_op_ne h1, decodeTopNibble_eq_none_iff.2 h2, decodeMaskF0FF_of_op_not_mem h4]

theorem decodeWord_of_maskF0FF (h : fieldOp w ∈ maskF0FFOps) : decodeWord w = decodeMaskF0FF w := by
  obtain ⟨h1, h2, h3⟩ := maskF0FFOps_in_no_other_domain _ h
  simp [decodeWord, decodeFullWord_of_op_ne h1, decodeTopNibble_eq_none_iff.2 h2, decodeMaskF00F_of_op_not_mem h3]

/-! ## A word that decodes is the word of its instruction -/

theorem layoutNNN_of_op {op : Nibble} (h : fieldOp w = op) : layoutNNN op (fieldNNN w) = w := by
  rw [← h, layoutNNN_fields]

theorem layoutXNN_of_op {op : Nibble} (h : fieldOp w = op) : layoutXNN op (fieldX w) (fieldNN w) = w := by
  rw [← h, layoutXNN_fields]

theorem layoutXYN_of_op {op : Nibble} (h : fieldOp w = op) : layoutXYN op (fieldX w) (fieldY w) (fieldN w) = w := by
  rw [← h, layoutXYN_fields]

theorem layoutXYN_of_op_N {op n : Nibble} (h : fieldOp w = op ∧ fieldN w = n) :
    layoutXYN op (fieldX w) (fieldY w) n = w := by
  rw [← h.1, ← h.2, layoutXYN_fields]

theorem layoutXNN_of_op_NN {op : Nibble} {nn : Byte} (h : fieldOp w = op ∧ fieldNN w = nn) :
    layoutXNN op (fieldX w) nn = w := by
  rw [← h.1, ← h.2, layoutXNN_fields]

/-- One arm of a domain's chain of tests: where its test holds, its instruction must encode to the word; where not,
the arms after it decide. -/
theorem encode_of_ite {c : Prop} [Decidable c] {j : Instr} {o : Option Instr} (hj : c → encode j = w)
    (ho : o = some i → encode i = w) (h : (if c then some j else o) = some i) : encode i = w := by
  by_cases hc : c
  · rw [if_pos hc] at h
    exact Option.some.inj h ▸ hj hc
  · exact ho (by rwa [if_neg hc] at h)

theorem encode_of_decodeFullWord : decodeFullWord w = some i → encode i = w :=
  encode_of_ite Eq.symm <| encode_of_ite Eq.symm nofun

theorem encode_of_decodeTopNibble : decodeTopNibble w = some i → encode i = w :=
  encode_of_ite layoutNNN_of_op <| encode_of_ite layoutNNN_of_op <| encode_of_ite layoutXNN_of_op <|
    encode_of_ite layoutXNN_of_op <| encode_of_ite layoutXNN_of_op <| encode_of_ite layoutXNN_of_op <|
      encode_of_ite layoutNNN_of_op <| encode_of_ite layoutNNN_of_op <| encode_of_ite layoutXNN_of_op <|
        encode_of_ite layoutXYN_of_op nofun

theorem encode_of_decodeMaskF00F : decodeMaskF00F w = some i → encode i = w := by
  rw [decodeMaskF00F_fields]
  iterate 11 refine encode_of_ite layoutXYN_of_op_N ?_
  nofun

theorem encode_of_decodeMaskF0FF : decodeMaskF0FF w = some i → encode i = w := by
  rw [decodeMaskF0FF_fields]
  iterate 11 refine encode_of_ite layoutXNN_of_op_NN ?_
  nofun

theorem encode_of_decodeWord (h : decodeWord w = some i) : encode i = w := by
  rcases op_in_some_domain (fieldOp w) with hop | hop | hop | hop
  · exact encode_of_decodeFullWord (decodeWord_of_op_zero hop ▸ h)
  · exact encode_of_decodeTopNibble (decodeWord_of_topNibble hop ▸ h)
  · exact encode_of_decodeMaskF00F (decodeWord_of_maskF00F hop ▸ h)
  · exact encode_of_decodeMaskF0FF (decodeWord_of_maskF0FF hop ▸ h)

end

/-- Settles O2: each arm of each domain puts the word together again from the fields it tests and the fields it
reads. -/
theorem encodeOfDecode : Obligations.EncodeOfDecode := fun _ _ => encode_of_decodeWord

/-! ## The word of an instruction decodes to it -/

theorem decodeWord_encode (i : Instr) : decodeWord (encode i) = some i := by
  cases i
  case cls | ret => decide
  case jp | call | seImm | sneImm | ldImm | addImm | ldI | jpV0 | rnd | drw =>
    rw [decodeWord_of_topNibble] <;> simp [encode, topNibbleOps, decodeTopNibble]
  case seReg | ldReg | orReg | andReg | xorReg | addReg | subReg | shr | subnReg | shl | sneReg =>
    rw [decodeWord_of_maskF00F] <;> simp [encode, maskF00FOps, decodeMaskF00F_fields]
  case skp | sknp | ldVxDT | ldVxK | ldDTVx | ldSTVx | addI | ldF | ldB | storeRegs | loadRegs =>
    rw [decodeWord_of_maskF0FF] <;> simp [encode, maskF0FFOps, decodeMaskF0FF_fields]

theorem decode_encodeBytes (i : Instr) : decode (encodeBytes i) = .ok (i, []) := by
  simp only [decode, encodeBytes, Machine.wordOfBytes_bytes, decodeWord_encode]

/-- Settles O1: the encoding lies in the domain of its top nibble, and that domain reads the operands back. -/
theorem decodeOfEncode : Obligations.DecodeOfEncode :=
  fun i => ⟨i.wellFormed_true, decodeWord_encode i, decode_encodeBytes i⟩

theorem decodeWord_eq_some_iff {w : Word} {i : Instr} : decodeWord w = some i ↔ encode i = w :=
  ⟨encode_of_decodeWord, fun h => h ▸ decodeWord_encode i⟩

/-! ## The rows of the opcode map (R80)

A row decodes where the instruction it gives, with the fields of the word, encodes to the word. One lemma for each
shape of a row. -/

section
variable {p : Word} {op : Nibble}

theorem rowDecodes_of_encode {m : Word} {instr : Word → Instr} (h : ∀ w, w &&& m = p → encode (instr w) = w) :
    RowDecodes p m instr :=
  fun w hw => decodeWord_eq_some_iff.2 (h w hw)

theorem rowDecodes_word {i : Instr} (h : encode i = p) : RowDecodes p 0xFFFF#16 fun _ => i :=
  rowDecodes_of_encode fun _ hw => h.trans (hw.symm.trans BitVec.and_allOnes)

theorem rowDecodes_NNN {mk : Addr → Instr} (h : ∀ nnn, encode (mk nnn) = layoutNNN op nnn)
    (hp : layoutNNN op 0#12 = p) : RowDecodes p 0xF000#16 fun w => mk (fieldNNN w) :=
  rowDecodes_of_encode fun w hw => by
    rw [← hp, mask_F000, layoutNNN_inj] at hw
    rw [h, layoutNNN_of_op hw.1]

theorem rowDecodes_XNN {mk : Nibble → Byte → Instr} (h : ∀ x nn, encode (mk x nn) = layoutXNN op x nn)
    (hp : layoutNNN op 0#12 = p) : RowDecodes p 0xF000#16 fun w => mk (fieldX w) (fieldNN w) :=
  rowDecodes_of_encode fun w hw => by
    rw [← hp, mask_F000, layoutNNN_inj] at hw
    rw [h, layoutXNN_of_op hw.1]

theorem rowDecodes_XYN {mk : Nibble → Nibble → Nibble → Instr} (h : ∀ x y n, encode (mk x y n) = layoutXYN op x y n)
    (hp : layoutNNN op 0#12 = p) : RowDecodes p 0xF000#16 fun w => mk (fieldX w) (fieldY w) (fieldN w) :=
  rowDecodes_of_encode fun w hw => by
    rw [← hp, mask_F000, layoutNNN_inj] at hw
    rw [h, layoutXYN_of_op hw.1]

theorem rowDecodes_XY {n : Nibble} {mk : Nibble → Nibble → Instr} (h : ∀ x y, encode (mk x y) = layoutXYN op x y n)
    (hp : layoutXYN op 0#4 0#4 n = p) : RowDecodes p 0xF00F#16 fun w => mk (fieldX w) (fieldY w) :=
  rowDecodes_of_encode fun w hw => by
    rw [← hp, mask_F00F, layoutXYN_inj] at hw
    rw [h, layoutXYN_of_op_N ⟨hw.1, hw.2.2.2⟩]

theorem rowDecodes_X {nn : Byte} {mk : Nibble → Instr} (h : ∀ x, encode (mk x) = layoutXNN op x nn)
    (hp : layoutXNN op 0#4 nn = p) : RowDecodes p 0xF0FF#16 fun w => mk (fieldX w) :=
  rowDecodes_of_encode fun w hw => by
    rw [← hp, mask_F0FF, layoutXNN_inj] at hw
    rw [h, layoutXNN_of_op_NN ⟨hw.1, hw.2.2⟩]

end

/-- Settles O4: each row by the lemma of its shape. -/
theorem opcodeMapDecodes : Obligations.OpcodeMapDecodes := by
  refine ⟨⟨rowDecodes_word rfl, rowDecodes_word rfl, ?_, ?_, ?_, ?_, ?_, ?_, ?_⟩, ?_, ⟨?_, ?_, ?_, ?_, ?_, ?_⟩, ?_⟩
  · exact rowDecodes_NNN (fun _ => rfl) rfl
  · exact rowDecodes_NNN (fun _ => rfl) rfl
  · exact rowDecodes_XNN (fun _ _ => rfl) rfl
  · exact rowDecodes_XNN (fun _ _ => rfl) rfl
  · exact rowDecodes_XY (fun _ _ => rfl) rfl
  · exact rowDecodes_XNN (fun _ _ => rfl) rfl
  · exact rowDecodes_XNN (fun _ _ => rfl) rfl
  · and_intros <;> exact rowDecodes_XY (fun _ _ => rfl) rfl
  · exact rowDecodes_NNN (fun _ => rfl) rfl
  · exact rowDecodes_NNN (fun _ => rfl) rfl
  · exact rowDecodes_XNN (fun _ _ => rfl) rfl
  · exact rowDecodes_XYN (fun _ _ _ => rfl) rfl
  · exact rowDecodes_X (fun _ => rfl) rfl
  · exact rowDecodes_X (fun _ => rfl) rfl
  · and_intros <;> exact rowDecodes_X (fun _ => rfl) rfl

/-! ## A known word has exactly one row (R74, R78) -/

/-- The rows of `opcodeMapDecodes` are all the rows of the opcode map. -/
theorem rowDecodes_of_mem_opcodeMap : ∀ r ∈ opcodeMap, ∃ instr, RowDecodes r.pattern r.mask instr := by
  have h := opcodeMapDecodes
  unfold Obligations.OpcodeMapDecodes at h
  casesm* _ ∧ _
  simp only [opcodeMap, List.forall_mem_append, List.forall_mem_cons, List.not_mem_nil, false_implies,
    implies_true, and_true]
  and_intros <;> exact ⟨_, ‹_›⟩

open Laws.EncodingInRow in
theorem encode_selects_row (i : Instr) : ∃ r ∈ opcodeMap, r.selectedBy (encode i) = true := by
  cases i
  exacts [cls, ret, jp _, call _, seImm _ _, sneImm _ _, seReg _ _, ldImm _ _, addImm _ _, ldReg _ _, orReg _ _,
    andReg _ _, xorReg _ _, addReg _ _, subReg _ _, shr _ _, subnReg _ _, shl _ _, sneReg _ _, ldI _, jpV0 _,
    rnd _ _, drw _ _ _, skp _, sknp _, ldVxDT _, ldVxK _, ldDTVx _, ldSTVx _, addI _, ldF _, ldB _, storeRegs _,
    loadRegs _]

theorem decodeWord_isSome_iff (w : Word) : (decodeWord w).isSome = true ↔ ∃ r ∈ opcodeMap, r.selectedBy w = true := by
  constructor
  · intro h
    obtain ⟨i, hi⟩ := Option.isSome_iff_exists.1 h
    exact encode_of_decodeWord hi ▸ encode_selects_row i
  · rintro ⟨r, hr, hw⟩
    obtain ⟨instr, hd⟩ := rowDecodes_of_mem_opcodeMap r hr
    rw [hd w (beq_iff_eq.1 hw), Option.isSome_some]

/-- Two rows that one word selects have equal patterns where both masks look. -/
theorem pattern_xor_of_selectedBy {r r' : Row} {w : Word} (h : r.selectedBy w = true) (h' : r'.selectedBy w = true) :
    (r.pattern ^^^ r'.pattern) &&& (r.mask &&& r'.mask) = 0#16 := by
  rw [← beq_iff_eq.1 h, ← beq_iff_eq.1 h']
  ext k hk
  simp only [BitVec.getElem_and, BitVec.getElem_xor, BitVec.getElem_zero]
  cases w[k] <;> cases r.mask[k] <;> cases r'.mask[k] <;> rfl

theorem row_unique {r r' : Row} {w : Word} (hr : r ∈ opcodeMap) (hr' : r' ∈ opcodeMap)
    (h : r.selectedBy w = true) (h' : r'.selectedBy w = true) : r = r' := by
  have hsymm : Std.Symm fun a b : Row => (a.pattern ^^^ b.pattern) &&& (a.mask &&& b.mask) ≠ 0#16 :=
    ⟨fun a b hab => by rwa [BitVec.xor_comm, BitVec.and_comm b.mask]⟩
  by_contra hne
  exact opcodeMap_rows_disjoint.forall hr hr' hne (pattern_xor_of_selectedBy h h')

/-- Settles O3. -/
theorem knownWordHasExactlyOneRow : Obligations.KnownWordHasExactlyOneRow :=
  fun w => ⟨decodeWord_isSome_iff w, fun _ hr _ hr' => row_unique hr hr'⟩

/-! ## The unknown words (R76), domain by domain -/

section
variable {w : Word}

theorem fieldOp_eq_iff {c : Nibble} : fieldOp w = c ↔ w.toNat / 0x1000 = c.toNat := by
  rw [← BitVec.toNat_inj, fieldOp_toNat]

theorem fieldN_eq_iff {c : Nibble} : fieldN w = c ↔ w.toNat % 16 = c.toNat := by
  rw [← BitVec.toNat_inj, fieldN_toNat]

theorem fieldNN_eq_iff {c : Byte} : fieldNN w = c ↔ w.toNat % 256 = c.toNat := by
  rw [← BitVec.toNat_inj, fieldNN_toNat]

theorem fieldOp_mem_topNibbleOps_iff : fieldOp w ∈ topNibbleOps ↔
    (1 ≤ w.toNat / 0x1000 ∧ w.toNat / 0x1000 ≤ 4) ∨ w.toNat / 0x1000 = 6 ∨ w.toNat / 0x1000 = 7 ∨
      (0xA ≤ w.toNat / 0x1000 ∧ w.toNat / 0x1000 ≤ 0xD) := by
  simp only [topNibbleOps, List.mem_cons, List.not_mem_nil, or_false, fieldOp_eq_iff, BitVec.reduceToNat]
  omega

theorem fieldOp_mem_maskF00FOps_iff :
    fieldOp w ∈ maskF00FOps ↔ w.toNat / 0x1000 = 5 ∨ w.toNat / 0x1000 = 8 ∨ w.toNat / 0x1000 = 9 := by
  simp [maskF00FOps, fieldOp_eq_iff]

theorem fieldOp_mem_maskF0FFOps_iff :
    fieldOp w ∈ maskF0FFOps ↔ w.toNat / 0x1000 = 0xE ∨ w.toNat / 0x1000 = 0xF := by
  simp [maskF0FFOps, fieldOp_eq_iff]

theorem decodeFullWord_eq_none_iff : decodeFullWord w = none ↔ w.toNat ≠ 0x00E0 ∧ w.toNat ≠ 0x00EE := by
  simp [decodeFullWord, ite_some_eq_none, ← BitVec.toNat_inj]

/-- In domain 3 the unknown words are those whose low nibble no row has. -/
theorem decodeMaskF00F_eq_none_iff (h : fieldOp w ∈ maskF00FOps) : decodeMaskF00F w = none ↔
    ((w.toNat / 0x1000 = 5 ∨ w.toNat / 0x1000 = 9) ∧ w.toNat % 16 ≠ 0) ∨
      (w.toNat / 0x1000 = 8 ∧ (w.toNat % 16 = 0x8 ∨ w.toNat % 16 = 0x9 ∨ w.toNat % 16 = 0xA ∨ w.toNat % 16 = 0xB ∨
        w.toNat % 16 = 0xC ∨ w.toNat % 16 = 0xD ∨ w.toNat % 16 = 0xF)) := by
  simp only [decodeMaskF00F_fields, ite_some_eq_none, fieldOp_eq_iff, fieldN_eq_iff, BitVec.reduceToNat]
  rcases fieldOp_mem_maskF00FOps_iff.1 h with hop | hop | hop
  · simp [hop]
  · simp [hop]
    omega
  · simp [hop]

/-- In domain 4 the unknown words are those whose low byte no row has. -/
theorem decodeMaskF0FF_eq_none_iff (h : fieldOp w ∈ maskF0FFOps) : decodeMaskF0FF w = none ↔
    (w.toNat / 0x1000 = 0xE ∧ w.toNat % 256 ≠ 0x9E ∧ w.toNat % 256 ≠ 0xA1) ∨
      (w.toNat / 0x1000 = 0xF ∧ w.toNat % 256 ≠ 0x07 ∧ w.toNat % 256 ≠ 0x0A ∧ w.toNat % 256 ≠ 0x15 ∧
        w.toNat % 256 ≠ 0x18 ∧ w.toNat % 256 ≠ 0x1E ∧ w.toNat % 256 ≠ 0x29 ∧ w.toNat % 256 ≠ 0x33 ∧
        w.toNat % 256 ≠ 0x55 ∧ w.toNat % 256 ≠ 0x65) := by
  simp only [decodeMaskF0FF_fields, ite_some_eq_none, fieldOp_eq_iff, fieldNN_eq_iff, BitVec.reduceToNat]
  rcases fieldOp_mem_maskF0FFOps_iff.1 h with hop | hop <;> simp [hop]

end

/-- Settles O5: each clause of the list is one domain's, and domain 2 knows all its words. -/
theorem unknownWordsAreTheListedOnes : Obligations.UnknownWordsAreTheListedOnes := by
  intro w
  rcases op_in_some_domain (fieldOp w) with h | h | h | h
  · rw [decodeWord_of_op_zero h, decodeFullWord_eq_none_iff]
    have hop : w.toNat / 0x1000 = 0 := fieldOp_eq_iff.1 h
    omega
  · rw [decodeWord_of_topNibble h, decodeTopNibble_eq_none_iff]
    have hop := fieldOp_mem_topNibbleOps_iff.1 h
    simp only [h, not_true_eq_false, false_iff]
    omega
  · rw [decodeWord_of_maskF00F h, decodeMaskF00F_eq_none_iff h]
    have hop := fieldOp_mem_maskF00FOps_iff.1 h
    have hlow : ¬ w.toNat < 0x1000 := by omega
    rcases hop with hop | hop | hop <;> simp [hop, hlow]
  · rw [decodeWord_of_maskF0FF h, decodeMaskF0FF_eq_none_iff h]
    have hop := fieldOp_mem_maskF0FFOps_iff.1 h
    have hlow : ¬ w.toNat < 0x1000 := by omega
    rcases hop with hop | hop <;> simp [hop, hlow]

/-- Settles O6: the decoder runs on each word. -/
theorem sampleWordsDecode : Obligations.SampleWordsDecode :=
  ⟨rfl, rfl, rfl, rfl, rfl, rfl, rfl, rfl, rfl, rfl, rfl⟩

end Sys2Proof

namespace Sys2Proof.Machine

/-! ## The step of a loaded or halted core, case by case (spec/40_cycle.md R90) -/

section
variable {s : State}

theorem step_of_halted (hh : s.halted = true) : step s = .next s := by simp [step, cycle, hh]

theorem step_of_fetchWord_error {k : HaltKind} (hh : s.halted = false) (hl : s.loaded = true)
    (hw : s.fetchWord = .error k) : step s = .next (s.takeHalt k none) := by
  simp [step, cycle, hh, hl, hw]

theorem step_of_unknown {w : Word} (hh : s.halted = false) (hl : s.loaded = true) (hw : s.fetchWord = .ok w)
    (hd : decodeWord w = none) : step s = .next s.advance.endCycle := by
  simp [step, cycle, hh, hl, hw, hd, execUnknown]

theorem step_of_known {w : Word} {i : Instr} (hh : s.halted = false) (hl : s.loaded = true)
    (hw : s.fetchWord = .ok w) (hd : decodeWord w = some i) : step s = exec i s := by
  simp [step, cycle, hh, hl, hw, hd]

end

/-- Settles O12: each case of the cycle answers a next state, an instruction's by `exec_answers_next`. -/
theorem loadedStepAnswersNext : Obligations.LoadedStepAnswersNext := by
  intro s h
  cases hh : s.halted with
  | true => exact ⟨s, step_of_halted hh⟩
  | false =>
    have hl : s.loaded = true := h.resolve_right (by simp [hh])
    cases hw : s.fetchWord with
    | error k => exact ⟨_, step_of_fetchWord_error hh hl hw⟩
    | ok w =>
      cases hd : decodeWord w with
      | none => exact ⟨_, step_of_unknown hh hl hw hd⟩
      | some i => exact step_of_known hh hl hw hd ▸ exec_answers_next i s

end Sys2Proof.Machine
end

section
/-! PROOFS. The cycle (spec/40_cycle.md): the step of a word that decodes, of one that does not, and the decay of the
timers. -/

namespace Sys2Proof.Machine

open Sys2Proof.Claims

/-! ## A step runs the instruction it fetched (R91, R94) -/

theorem State.fetchWord_of_memRead {s : State} {hi lo : Byte} (hhi : s.memRead s.pc.toNat = .ok hi)
    (hlo : s.memRead (s.pc.toNat + 1) = .ok lo) : s.fetchWord = .ok (wordOfBytes hi lo) := by
  simp only [State.fetchWord, hhi, hlo]

theorem decodeWord_of_decode {hi lo : Byte} {rest l : List Byte} {i : Instr}
    (h : decode (hi :: lo :: rest) = .ok (i, l)) : decodeWord (wordOfBytes hi lo) = some i := by
  unfold decode at h
  cases hd : decodeWord (wordOfBytes hi lo) with
  | none =>
    simp only [hd] at h
    cases h
  | some j =>
    simp only [hd] at h
    cases h
    rfl

/-- Settles O7: the two bytes are the word fetched, and the bytes decode as that word does. -/
theorem stepRunsDecodedInstruction : Obligations.StepRunsDecodedInstruction :=
  fun _ _ _ _ hh hl hhi hlo hd => step_of_known hh hl (State.fetchWord_of_memRead hhi hlo) (decodeWord_of_decode hd)

/-! ## An unknown word (R100) -/

/-- A cycle whose effect writes `pc` alone, whatever the value, has the frame `OnlyPc`. -/
theorem onlyPc_setPc_endCycle (s : State) (a : Word) : OnlyPc s (s.setPc a).endCycle :=
  ⟨fun _ => rfl, rfl, rfl, rfl, fun _ => rfl, ⟨rfl, rfl⟩, rfl, rfl, rfl, rfl, rfl, rfl⟩

/-- Settles O10: the cycle of an unknown word writes the advanced `pc` and ends. -/
theorem unknownWordIsNoOp : Obligations.UnknownWordIsNoOp :=
  fun s _ hh hl hw hd => ⟨_, step_of_unknown hh hl hw hd, rfl, onlyPc_setPc_endCycle s (advancedPc s.pc)⟩

/-! ## The decay of the timers (R96)

An instruction that leaves a timer alone decays its old value; FX15 and FX18 decay the value they wrote. -/

section
variable {i : Instr} {x : Nibble} {s t : State}

theorem exec_completes_of_not_halted (h : exec i s = .next t) (ht : t.halted = false) : CompletesInFrame i s t := by
  rcases exec_cases h with ⟨k, rfl⟩ | hc
  · cases ht
  · exact hc

theorem CompletesInFrame.DT_decayed (h : CompletesInFrame i s t) (hi : ∀ x, i ≠ .ldDTVx x) :
    t.DT = decayed s.params.timerDecay s.DT := by
  obtain ⟨u, hu, rfl⟩ := h
  rw [State.endCycle_DT, hu.params, hu.DT hi]

theorem CompletesInFrame.ST_decayed (h : CompletesInFrame i s t) (hi : ∀ x, i ≠ .ldSTVx x) :
    t.ST = decayed s.params.timerDecay s.ST := by
  obtain ⟨u, hu, rfl⟩ := h
  rw [State.endCycle_ST, hu.params, hu.ST hi]

theorem exec_ldDTVx_DT (h : exec (.ldDTVx x) s = .next t) : t.DT = decayed s.params.timerDecay (s.readV x) := by
  obtain rfl : (s.advance.setDT (s.readV x)).endCycle = t := Host.Outcome.next.inj h
  rfl

theorem exec_ldSTVx_ST (h : exec (.ldSTVx x) s = .next t) : t.ST = decayed s.params.timerDecay (s.readV x) := by
  obtain rfl : (s.advance.setST (s.readV x)).endCycle = t := Host.Outcome.next.inj h
  rfl

end

/-- Settles O15: an unknown word leaves both timers to the end of the cycle; an instruction that completes does too,
but for the timer that FX15 or FX18 writes. -/
theorem timersDecayOncePerCycle : Obligations.TimersDecayOncePerCycle := by
  intro s t w hh hl hw h ht
  cases hd : decodeWord w with
  | none =>
    obtain rfl := Host.Outcome.next.inj ((step_of_unknown hh hl hw hd).symm.trans h)
    exact ⟨rfl, rfl⟩
  | some i =>
    rw [step_of_known hh hl hw hd] at h
    have hc := exec_completes_of_not_halted h ht
    constructor
    · split
      next x hi =>
        obtain rfl := Option.some.inj hi
        exact exec_ldDTVx_DT h
      next hi => exact hc.DT_decayed fun x e => hi x (congrArg some e)
    · split
      next x hi =>
        obtain rfl := Option.some.inj hi
        exact exec_ldSTVx_ST h
      next hi => exact hc.ST_decayed fun x e => hi x (congrArg some e)

end Sys2Proof.Machine
end

section
/-! PROOFS. The display (spec/41_display.md): what 00E0 and a draw leave alone, the two outcomes of a draw and of the
transfers that raise OutOfBoundsAddress, and the draw as a toggle. -/

namespace Sys2Proof.Machine

open Sys2Proof.Claims

/-! ## The frame of the display instructions (R36) -/

/-- The frame of an instruction that writes nothing but V registers and the framebuffer. -/
def OnlyRegistersAndFb (s t : State) : Prop :=
  t.I = s.I ∧ t.stack = s.stack ∧ SameMemory s t ∧ TimersDecayed s t ∧ Completed s t

theorem onlyRegistersAndFb_setFb_withV (s : State) (d : BitVec 2048) (v : Vector Byte 16) :
    OnlyRegistersAndFb s ((s.advance.setFb d).withV v).endCycle :=
  ⟨rfl, rfl, fun _ => rfl, ⟨rfl, rfl⟩, rfl, rfl, rfl, rfl, rfl, rfl⟩

theorem pixelOf_zero (y x : Nat) : pixelOf 0#2048 y x = false := BitVec.getLsbD_zero

/-- Settles O35: the cycle replaces the framebuffer by zeros and keeps the registers. -/
theorem clearScreen : Obligations.ClearScreen :=
  ⟨rowDecodes_word rfl, fun s => ⟨(s.advance.setFb 0#2048).endCycle, rfl, fun y x _ _ => pixelOf_zero y x,
    fun _ => rfl, onlyRegistersAndFb_setFb_withV s 0#2048 s.V⟩⟩

/-! ## The outcome of a draw (R111) -/

/-- The state after a cycle whose draw ended in the drawing `d`. -/
def State.drawn (s : State) (d : Drawing) : State :=
  ((s.advance.setFb d.fb).writeVF (flagByte d.collision)).endCycle

theorem State.drawn_readV (s : State) (d : Drawing) (r : Nibble) :
    (s.drawn d).readV r = if r = 0xF#4 then flagByte d.collision else s.readV r :=
  State.readV_writeV _ 0xF#4 r _

theorem State.drawn_readVF (s : State) (d : Drawing) : (s.drawn d).readV 0xF#4 = flagByte d.collision := by
  rw [State.drawn_readV, if_pos rfl]

theorem State.onlyRegistersAndFb_drawn (s : State) (d : Drawing) : OnlyRegistersAndFb s (s.drawn d) :=
  onlyRegistersAndFb_setFb_withV s d.fb _

theorem flagByte_eq_one_iff (b : Bool) : flagByte b = 1#8 ↔ b = true := by cases b <;> decide

theorem flagByte_eq_one_or_zero (b : Bool) : flagByte b = 1#8 ∨ flagByte b = 0#8 := by cases b <;> decide

section
variable {x y n : Nibble} {s : State}

theorem exec_drw_of_drawRows_ok {d : Drawing}
    (h : s.drawRows (s.readV x).toNat (s.readV y).toNat n.toNat = .ok d) :
    exec (.drw x y n) s = .next (s.drawn d) := by
  change execDrw x y n s = _
  exact runCycleOrHalt_ok (by simp only [State.drawRows_advance, State.advance_readV, h])

theorem exec_drw_of_drawRows_error {k : HaltKind}
    (h : s.drawRows (s.readV x).toNat (s.readV y).toNat n.toNat = .error k) :
    exec (.drw x y n) s = .next (halted s k (some (encode (.drw x y n)))) := by
  change execDrw x y n s = _
  exact runCycleOrHalt_error (by simp only [State.drawRows_advance, State.advance_readV, h])

end

/-- Settles O36: where the rows resolve the draw ends in a drawing, whose pixels and collision `drawRows_ok` gives. -/
theorem drawTogglesTheSprite : Obligations.DrawTogglesTheSprite := by
  intro x y n s h
  obtain ⟨d, hd, hpix, hcol⟩ := s.drawRows_ok (s.readV x).toNat (s.readV y).toNat n.toNat h
  refine ⟨s.drawn d, exec_drw_of_drawRows_ok hd, hpix, fun r => ?_, ?_, ?_, s.onlyRegistersAndFb_drawn d⟩
  · rw [State.drawn_readVF, State.drawn_readV]
  · rw [State.drawn_readVF]; exact flagByte_eq_one_or_zero d.collision
  · rw [State.drawn_readVF, flagByte_eq_one_iff]; exact hcol

/-! ## Accesses above 4095 under FAULT (R99, R225) -/

section
variable {x : Nibble} {s : State}

/-- Two bytes after `I` is the third byte of FX33 (R183). -/
theorem exec_ldB_halts (hf : s.params.addrPolicy = .fault) (ha : 4095 < s.I.toNat + 2) :
    exec (.ldB x) s = .next (halted s .outOfBoundsAddress (some (encode (.ldB x)))) := by
  change execLdB x s = _
  refine runCycleOrHalt_error (State.storeBytes_error _ s.advance s.I.toNat hf (List.cons_ne_nil _ _) ?_)
  show 4096 < s.I.toNat + 3
  omega

theorem State.firstRegs_length (s : State) (n : Nat) : (s.firstRegs n).length = n := by simp [State.firstRegs]

/-- FX55 stores x + 1 bytes, the last at `I + x` (R184). -/
theorem exec_storeRegs_halts (hf : s.params.addrPolicy = .fault) (ha : 4095 < s.I.toNat + x.toNat) :
    exec (.storeRegs x) s = .next (halted s .outOfBoundsAddress (some (encode (.storeRegs x)))) := by
  have hlen := s.advance.firstRegs_length (x.toNat + 1)
  have hstore : s.advance.storeBytes s.advance.I.toNat (s.advance.firstRegs (x.toNat + 1)) =
      .error .outOfBoundsAddress :=
    State.storeBytes_error _ s.advance s.I.toNat hf (List.ne_nil_of_length_eq_add_one hlen) (by rw [hlen]; omega)
  change execStoreRegs x s = _
  exact runCycleOrHalt_error (by simp only [hstore])

/-- FX65 loads x + 1 bytes, the last from `I + x` (R185). -/
theorem exec_loadRegs_halts (hf : s.params.addrPolicy = .fault) (ha : 4095 < s.I.toNat + x.toNat) :
    exec (.loadRegs x) s = .next (halted s .outOfBoundsAddress (some (encode (.loadRegs x)))) := by
  have hload : s.advance.loadFirstRegs s.advance.I.toNat (x.toNat + 1) = .error .outOfBoundsAddress :=
    s.advance.loadFirstRegs_error s.I.toNat x.toNat hf (by omega)
  change execLoadRegs x s = _
  exact runCycleOrHalt_error (by simp only [hload])

theorem exec_drw_halts {y n : Nibble} (hf : s.params.addrPolicy = .fault)
    (h : ∃ r, rowDrawn (s.readV y).toNat n.toNat r ∧ 4095 < s.I.toNat + r) :
    exec (.drw x y n) s = .next (halted s .outOfBoundsAddress (some (encode (.drw x y n)))) :=
  exec_drw_of_drawRows_error (s.drawRows_error _ _ _ hf h)

end

/-- Settles O38, by the halt of each of the four instructions. -/
theorem outOfBoundsHalts : Obligations.OutOfBoundsHalts := fun _ hf =>
  ⟨fun _ _ _ r hr ha => exec_drw_halts hf ⟨r, hr, ha⟩, fun _ ha => exec_ldB_halts hf ha,
    fun _ ha => ⟨exec_storeRegs_halts hf ha, exec_loadRegs_halts hf ha⟩⟩

/-! ## A second draw (R114) -/

/-- The rows of a sprite all resolve, or FAULT is on and a drawn row is above 4095. -/
theorem drawnRows_resolve_or (s : State) (y n : Nibble) :
    (s.params.addrPolicy = .mask ∨ ∀ r, rowDrawn (s.readV y).toNat n.toNat r → s.I.toNat + r ≤ 4095) ∨
      (s.params.addrPolicy = .fault ∧ ∃ r, rowDrawn (s.readV y).toNat n.toNat r ∧ 4095 < s.I.toNat + r) := by
  cases hp : s.params.addrPolicy with
  | mask => exact .inl (.inl rfl)
  | fault =>
    by_cases h : ∃ r, rowDrawn (s.readV y).toNat n.toNat r ∧ 4095 < s.I.toNat + r
    · exact .inr ⟨rfl, h⟩
    · exact .inl (.inr fun r hr => Nat.le_of_not_lt fun ha => h ⟨r, hr, ha⟩)

/-- What a sprite covers depends on the parameters, `I` and memory alone, and not on the framebuffer. -/
theorem spriteCovers_congr {s t : State} (hp : t.params = s.params) (hI : t.I = s.I) (hm : SameMemory s t)
    (x0 y0 n y x : Nat) : spriteCovers t x0 y0 n y x ↔ spriteCovers s x0 y0 n y x := by
  simp only [spriteCovers, hp, hI, hm _]

/-- A bit that changes the second time exactly when it changed the first time is back at its first value. -/
theorem eq_of_toggled_alike {a b c : Bool} (h : c ≠ b ↔ b ≠ a) : c = a := by
  revert a b c; decide

/-- Settles O37. Where the rows resolve both draws toggle the pixels of one sprite, so the second undoes the first,
and a pixel it collides with is a covered pixel that the first draw set; elsewhere both halt. -/
theorem drawTwiceRestores : Obligations.DrawTwiceRestores := by
  intro x y n s t u hst htu hx hy
  rcases drawnRows_resolve_or s y n with hres | ⟨hf, hr⟩
  · have hpar := exec_params hst
    obtain ⟨t', ht', hpix₁, -, -, -, hI, -, hmem, -⟩ := drawTogglesTheSprite x y n s hres
    obtain rfl := Host.Outcome.next.inj (ht'.symm.trans hst)
    obtain ⟨u', hu', hpix₂, -, -, hcol, -⟩ := drawTogglesTheSprite x y n t' (by rw [hpar, hy, hI]; exact hres)
    obtain rfl := Host.Outcome.next.inj (hu'.symm.trans htu)
    simp only [hx, hy, spriteCovers_congr hpar hI hmem] at hpix₂ hcol
    refine ⟨fun py px hpy hpx => ?_, fun _ _ => hcol.trans (exists₂_congr fun py px => ⟨?_, ?_⟩)⟩
    · exact eq_of_toggled_alike ((hpix₂ py px hpy hpx).trans (hpix₁ py px hpy hpx).symm)
    · rintro ⟨hcov, hset⟩
      have ⟨hpy, hpx, _⟩ := hcov
      have hne := (hpix₁ py px hpy hpx).2 hcov
      exact ⟨hpy, hpx, by simpa [hset] using hne, hset⟩
    · rintro ⟨hpy, hpx, hclear, hset⟩
      exact ⟨(hpix₁ py px hpy hpx).1 (by simp [hclear, hset]), hset⟩
  · obtain rfl := Host.Outcome.next.inj ((exec_drw_halts hf hr).symm.trans hst)
    obtain rfl := Host.Outcome.next.inj ((exec_drw_halts (s := halted s _ _) hf hr).symm.trans htu)
    exact ⟨fun _ _ _ _ => rfl, fun _ ht => nomatch ht⟩

end Sys2Proof.Machine
end

section
/-! PROOFS. Control transfer (spec/42_control_flow.md): the jumps, a call and its return with the halts of a full and
an empty stack, and the skips. -/

namespace Sys2Proof.Machine

open Sys2Proof.Claims

/-! ## Jumps (R131, R137) -/

/-- A jump target, an address of 12 bits, is not changed by the width of `pc`. -/
theorem jumpTarget_toNat (nnn : Addr) : (nnn.setWidth 16).toNat = nnn.toNat :=
  BitVec.toNat_setWidth_of_le (by decide)

/-- The target of BNNN is at most 0x10FE, so the 16-bit sum does not wrap (D27). -/
theorem jumpPlusV0Target_toNat (nnn : Addr) (v : Byte) :
    (nnn.setWidth 16 + v.setWidth 16).toNat = nnn.toNat + v.toNat := by
  have hn := nnn.isLt
  have hv := v.isLt
  rw [BitVec.toNat_add, jumpTarget_toNat, BitVec.toNat_setWidth_of_le (by decide)]
  omega

/-- Settles O39: the row by the lemma of its shape, and the cycle writes the target to `pc` alone. -/
theorem jump : Obligations.Jump :=
  ⟨rowDecodes_NNN (fun _ => rfl) rfl, fun nnn s =>
    ⟨(s.setPc (nnn.setWidth 16)).endCycle, rfl, jumpTarget_toNat nnn, onlyPc_setPc_endCycle s _⟩⟩

/-- Settles O40: the cycle writes the sum to `pc` alone, and the sum does not wrap. -/
theorem jumpPlusV0 : Obligations.JumpPlusV0 := fun nnn s =>
  ⟨(s.setPc (nnn.setWidth 16 + (s.readV 0#4).setWidth 16)).endCycle, rfl, jumpPlusV0Target_toNat nnn (s.readV 0#4),
    onlyPc_setPc_endCycle s _⟩

/-! ## Call and return (R130, R132) -/

/-- The state after a cycle that leaves the stack `l` and goes to `a`. -/
def State.transferred (s : State) (l : List Word) (a : Word) : State :=
  ((s.advance.setStack l).setPc a).endCycle

@[simp] theorem State.transferred_pc (s : State) (l : List Word) (a : Word) : (s.transferred l a).pc = a := rfl

@[simp] theorem State.transferred_stack (s : State) (l : List Word) (a : Word) : (s.transferred l a).stack = l := rfl

@[simp] theorem State.transferred_readV (s : State) (l : List Word) (a : Word) (r : Nibble) :
    (s.transferred l a).readV r = s.readV r := rfl

@[simp] theorem State.transferred_I (s : State) (l : List Word) (a : Word) : (s.transferred l a).I = s.I := rfl

@[simp] theorem State.transferred_peek (s : State) (l : List Word) (a : Word) (c : Nat) :
    (s.transferred l a).peek c = s.peek c := rfl

theorem State.onlyPcAndStack_transferred (s : State) (l : List Word) (a : Word) :
    OnlyPcAndStack s (s.transferred l a) :=
  ⟨fun _ => rfl, rfl, rfl, fun _ => rfl, ⟨rfl, rfl⟩, rfl, rfl, rfl, rfl, rfl, rfl⟩

/-- A transfer leaves memory alone, and where both bytes at its target lie in memory the next fetch reads them
whatever the policy (R54, R55). -/
theorem State.transferred_fetchWord (s : State) (l : List Word) {a : Word} (ha : a.toNat ≤ 4094) :
    (s.transferred l a).fetchWord = .ok (wordOfBytes (s.peek a.toNat) (s.peek (a.toNat + 1))) := by
  rw [State.fetchWord_ok _ (.inr ha), transferred_pc, transferred_peek, transferred_peek,
    Nat.mod_eq_of_lt (by omega), Nat.mod_eq_of_lt (by omega)]

section
variable {nnn : Addr} {s : State}

theorem exec_call_of_not_full (h : s.params.stackDepth ≠ some s.stack.length) :
    exec (.call nnn) s = .next (s.transferred (advancedPc s.pc :: s.stack) (nnn.setWidth 16)) := by
  obtain ⟨t, ht⟩ := exec_answers_next (.call nnn) s
  rcases exec_call_cases ht with ⟨-, rfl⟩ | ⟨hfull, -⟩
  · exact ht
  · exact absurd hfull h

theorem exec_call_of_full (h : s.params.stackDepth = some s.stack.length) :
    exec (.call nnn) s = .next (halted s .stackOverflow (some (encode (.call nnn)))) := by
  obtain ⟨t, ht⟩ := exec_answers_next (.call nnn) s
  rcases exec_call_cases ht with ⟨hfree, -⟩ | ⟨-, rfl⟩
  · exact absurd h hfree
  · exact ht

theorem exec_ret_of_stack_cons {v : Word} {rest : List Word} (h : s.stack = v :: rest) :
    exec .ret s = .next (s.transferred rest v) := by
  obtain ⟨t, ht⟩ := exec_answers_next .ret s
  rcases exec_ret_cases ht with ⟨v', rest', h', rfl⟩ | ⟨h', -⟩
  · obtain ⟨rfl, rfl⟩ := List.cons.inj (h.symm.trans h')
    exact ht
  · exact absurd (h.symm.trans h') (List.cons_ne_nil v rest)

theorem exec_ret_of_stack_nil (h : s.stack = []) :
    exec .ret s = .next (halted s .stackUnderflow (some (encode .ret))) := by
  obtain ⟨t, ht⟩ := exec_answers_next .ret s
  rcases exec_ret_cases ht with ⟨v, rest, h', -⟩ | ⟨-, rfl⟩
  · exact absurd (h'.symm.trans h) (List.cons_ne_nil v rest)
  · exact ht

theorem step_call_of_not_full (hw : s.fetchWord = .ok (encode (.call nnn)))
    (h : s.params.stackDepth ≠ some s.stack.length) (hh : s.halted = false) (hl : s.loaded = true) :
    step s = .next (s.transferred (advancedPc s.pc :: s.stack) (nnn.setWidth 16)) :=
  (step_of_known hh hl hw (decodeWord_encode _)).trans (exec_call_of_not_full h)

theorem step_ret_of_stack_cons {v : Word} {rest : List Word} (hw : s.fetchWord = .ok (encode .ret))
    (h : s.stack = v :: rest) (hh : s.halted = false) (hl : s.loaded = true) :
    step s = .next (s.transferred rest v) :=
  (step_of_known hh hl hw (decodeWord_encode _)).trans (exec_ret_of_stack_cons h)

end

/-- Settles O41: the two outcomes of a call. -/
theorem callPushesReturnAddress : Obligations.CallPushesReturnAddress := fun nnn s =>
  ⟨fun h => ⟨_, exec_call_of_not_full h, jumpTarget_toNat nnn, rfl, s.onlyPcAndStack_transferred _ _⟩,
    exec_call_of_full⟩

/-- Settles O42: the two outcomes of a return. -/
theorem returnPopsAddress : Obligations.ReturnPopsAddress := fun s =>
  ⟨fun v rest h => ⟨_, exec_ret_of_stack_cons h, rfl, rfl, s.onlyPcAndStack_transferred rest v⟩,
    exec_ret_of_stack_nil⟩

/-- Settles O43: the first step runs the call, the second fetches 00EE at its target, where memory is as before, and
the return pops what the call pushed. -/
theorem callThenReturn : Obligations.CallThenReturn := by
  intro nnn s hh hl hfree hw hnnn hhi hlo
  have hfetch : (s.transferred (advancedPc s.pc :: s.stack) (nnn.setWidth 16)).fetchWord = .ok (encode .ret) := by
    rw [s.transferred_fetchWord _ ((jumpTarget_toNat nnn).trans_le hnnn), jumpTarget_toNat, hhi, hlo]
    rfl
  have hcall := step_call_of_not_full hw hfree hh hl
  have hret := step_ret_of_stack_cons hfetch (State.transferred_stack ..) hh hl
  exact ⟨_, _, hcall, hret, by simp [SameRegisters]⟩

/-! ## Skips (R133 to R136, R138) -/

/-- A skip adds 2 in the 16 bits of `pc` (R138). -/
theorem skipTarget_toNat_mod (c : Bool) (a0 : Word) :
    (skipTarget c a0).toNat = if c then ((advancedPc a0).toNat + 2) % 65536 else (advancedPc a0).toNat := by
  cases c
  · rfl
  · exact BitVec.toNat_add ..

/-- The bound of D28. -/
theorem skipTarget_le (c : Bool) (a0 : Word) : (skipTarget c a0).toNat ≤ 4097 := by
  have hadv := advancedPc_le a0
  rw [skipTarget_toNat]
  split <;> omega

/-- Settles O44: the rows by the lemma of their shape; each cycle writes the target of the skip to `pc` alone. -/
theorem skipImmediate : Obligations.SkipImmediate := by
  refine ⟨rowDecodes_XNN (fun _ _ => rfl) rfl, rowDecodes_XNN (fun _ _ => rfl) rfl, fun x nn s => ⟨?_, ?_⟩⟩
  · refine ⟨_, exec_seImm x nn s, onlyPc_setPc_endCycle s _, ?_⟩
    simp [skipTarget_toNat_mod]
  · refine ⟨_, exec_sneImm x nn s, onlyPc_setPc_endCycle s _, ?_⟩
    simp [skipTarget_toNat_mod]

/-- Settles O45: each cycle writes the target of the skip to `pc` alone. -/
theorem skipRegister : Obligations.SkipRegister := by
  refine fun x y s => ⟨?_, ?_⟩
  · refine ⟨_, exec_seReg x y s, onlyPc_setPc_endCycle s _, skipTarget_le _ _, ?_⟩
    simp [skipTarget_toNat]
  · refine ⟨_, exec_sneReg x y s, onlyPc_setPc_endCycle s _, skipTarget_le _ _, ?_⟩
    simp [skipTarget_toNat]

end Sys2Proof.Machine
end

section
/-! PROOFS. The loads, the 8-bit ALU and the random byte (spec/43_alu.md): the two ends a cycle of this family can
have, V[x] written alone or with its flag, and each instruction as one of them. -/

namespace Sys2Proof.Machine

open Sys2Proof.Claims

/-! ## The two ends of a cycle (R163) -/

/-- The state after a cycle that writes `b` to `V[x]`. -/
def State.written (s : State) (x : Nibble) (b : Byte) : State := (s.advance.writeV x b).endCycle

/-- The state after a cycle that writes `b` to `V[x]` and then the flag `f` to VF. -/
def State.flagged (s : State) (x : Nibble) (b : Byte) (f : Bool) : State := (s.advance.writeWithFlag x b f).endCycle

/-- Whatever a cycle leaves in the registers, it is within the frame of an instruction that writes only them. -/
theorem onlyRegisters_withV (s : State) (v : Vector Byte 16) : OnlyRegisters s (s.advance.withV v).endCycle :=
  ⟨rfl, rfl, rfl, fun _ => rfl, ⟨rfl, rfl⟩, rfl, rfl, rfl, rfl, rfl, rfl⟩

section
variable (s : State) (x : Nibble) (b : Byte)

theorem State.onlyRegisters_written : OnlyRegisters s (s.written x b) := onlyRegisters_withV s _

theorem State.onlyRegisters_flagged (f : Bool) : OnlyRegisters s (s.flagged x b f) := onlyRegisters_withV s _

theorem State.written_readV (r : Nibble) : (s.written x b).readV r = if r = x then b else s.readV r :=
  State.readV_writeV _ x r b

theorem State.written_readV_self : (s.written x b).readV x = b := by rw [written_readV, if_pos rfl]

theorem State.written_readV_of_ne {r : Nibble} (h : r ≠ x) : (s.written x b).readV r = s.readV r := by
  rw [written_readV, if_neg h]

theorem State.flagged_readV (f : Bool) (r : Nibble) :
    (s.flagged x b f).readV r = if r = 0xF#4 then flagByte f else if r = x then b else s.readV r :=
  State.readV_writeWithFlag _ x r b f

end

/-! ## Results with a flag (R150, R157 to R161) -/

theorem addCarry_toNat (a b : Byte) : (flagByte (addCarry a b)).toNat = if 255 < a.toNat + b.toNat then 1 else 0 := by
  simp only [flagByte_toNat, addCarry_iff]

theorem noBorrow_toNat (a b : Byte) : (flagByte (noBorrow a b)).toNat = if b.toNat ≤ a.toNat then 1 else 0 := by
  simp only [flagByte_toNat, noBorrow_iff]

/-- A cycle that ends in `State.flagged`, its flag and its result given as numbers. -/
theorem exec_answers_flagged {i : Instr} {s : State} {x : Nibble} {b : Byte} {f : Bool} {flag result : Nat}
    (hf : (flagByte f).toNat = flag) (hb : b.toNat = result) (he : exec i s = .next (s.flagged x b f)) :
    ∃ t, exec i s = .next t ∧
      (∀ r, (t.readV r).toNat = if r = 0xF#4 then flag else if r = x then result else (s.readV r).toNat) ∧
      OnlyRegisters s t := by
  refine ⟨_, he, fun r => ?_, s.onlyRegisters_flagged x b f⟩
  rw [State.flagged_readV, apply_ite BitVec.toNat, apply_ite BitVec.toNat, hf, hb]

/-- Settles O31: the 9-bit sum gives the result and the carry. -/
theorem addWithCarry : Obligations.AddWithCarry := fun _ _ _ =>
  exec_answers_flagged (addCarry_toNat _ _) (addResult_toNat _ _) rfl

/-- Settles O32: 8XY7 is 8XY5 with the operands in the other order. -/
theorem subtractNoBorrow : Obligations.SubtractNoBorrow := fun _ _ _ =>
  ⟨exec_answers_flagged (noBorrow_toNat _ _) (subResult_toNat _ _) rfl,
    exec_answers_flagged (noBorrow_toNat _ _) (subResult_toNat _ _) rfl⟩

/-- Settles O33: both cycles read V[x] alone, so the result does not depend on Y. -/
theorem shiftByOne : Obligations.ShiftByOne := fun _ _ _ =>
  ⟨exec_answers_flagged (shrOut_toNat _) (shrResult_toNat _) rfl,
    exec_answers_flagged (shlOut_toNat _) (shlResult_toNat _) rfl⟩

/-! ## Results without a flag (R151 to R156, R162) -/

/-- Settles O27: the row by the lemma of its shape, and the cycle writes NN to V[x]. -/
theorem loadImmediate : Obligations.LoadImmediate :=
  ⟨rowDecodes_XNN (fun _ _ => rfl) rfl, fun x nn s =>
    ⟨s.written x nn, rfl, s.written_readV x nn, s.onlyRegisters_written x nn⟩⟩

/-- Settles O28: the row by the lemma of its shape, and the cycle writes the sum of 8 bits to V[x]. -/
theorem addImmediate : Obligations.AddImmediate := by
  refine ⟨rowDecodes_XNN (fun _ _ => rfl) rfl, fun x nn s =>
    ⟨s.written x (s.readV x + nn), rfl, fun r => ?_, s.onlyRegisters_written x _⟩⟩
  rw [State.written_readV, apply_ite BitVec.toNat, BitVec.toNat_add]

/-- Settles O29: the row by the lemma of its shape, and the cycle writes V[y] to V[x]. -/
theorem copyRegister : Obligations.CopyRegister :=
  ⟨rowDecodes_XY (fun _ _ => rfl) rfl, fun x y s =>
    ⟨s.written x (s.readV y), rfl, s.written_readV x _, s.onlyRegisters_written x _⟩⟩

/-- A cycle that ends in `State.written`, its result given bit by bit. -/
theorem exec_answers_written_bits {i : Instr} {s : State} {x : Nibble} {b : Byte} {bits : Nat → Bool}
    (hb : ∀ k, b.getLsbD k = bits k) (he : exec i s = .next (s.written x b)) :
    ∃ t, exec i s = .next t ∧ OnlyRegisters s t ∧ (∀ r, r ≠ x → t.readV r = s.readV r) ∧
      ∀ k, (t.readV x).getLsbD k = bits k := by
  refine ⟨_, he, s.onlyRegisters_written x b, fun _ => s.written_readV_of_ne x b, fun k => ?_⟩
  rw [State.written_readV_self, hb]

/-- Settles O30: each cycle writes the one result to V[x], VF being V[x] only where X = F. -/
theorem bitwiseLogic : Obligations.BitwiseLogic := fun _ _ _ =>
  ⟨exec_answers_written_bits (fun _ => BitVec.getLsbD_or) rfl,
    exec_answers_written_bits (fun _ => BitVec.getLsbD_and) rfl,
    exec_answers_written_bits (fun _ => BitVec.getLsbD_xor) rfl⟩

/-- Settles O34: the advance leaves the cycle's inputs alone, so the byte combined with NN is that of the state before
the cycle. -/
theorem randomAndImmediate : Obligations.RandomAndImmediate := by
  intro x nn s
  refine ⟨s.written x (s.input.rand &&& nn), rfl, s.onlyRegisters_written x _, fun _ => s.written_readV_of_ne x _,
    fun k => ?_, fun h => ?_⟩
  · rw [State.written_readV_self, BitVec.getLsbD_and]
  · rw [State.written_readV_self, h, BitVec.and_zero]

end Sys2Proof.Machine
end

section
/-! PROOFS. The index register and the memory transfers (spec/44_index_memory.md): the ends of a cycle that writes `I`
alone, memory and `I`, or the registers and `I`, block stores by the addresses they resolve to, and each instruction
as one of them. -/

namespace Sys2Proof.Machine

open Sys2Proof.Claims

/-! ## The cycles that write `I` alone (R180 to R182) -/

theorem onlyI_setI_endCycle (s : State) (i : Word) : OnlyI s (s.advance.setI i).endCycle :=
  ⟨fun _ => rfl, rfl, rfl, fun _ => rfl, ⟨rfl, rfl⟩, rfl, rfl, rfl, rfl, rfl, rfl⟩

/-- Settles O47: the row by the lemma of its shape, and the cycle writes NNN, which 16 bits hold, to `I` alone. -/
theorem setIndex : Obligations.SetIndex :=
  ⟨rowDecodes_NNN (fun _ => rfl) rfl, fun nnn s =>
    ⟨(s.advance.setI (nnn.setWidth 16)).endCycle, rfl, BitVec.toNat_setWidth_of_le (by decide),
      onlyI_setI_endCycle s _⟩⟩

/-- The sum of FX1E is that of 16 bits (D19). -/
theorem indexPlusByte_toNat (i : Word) (v : Byte) : (i + v.setWidth 16).toNat = (i.toNat + v.toNat) % 65536 := by
  rw [BitVec.toNat_add, BitVec.toNat_setWidth_of_le (by decide)]

/-- Settles O48: both cycles write `I` alone, one the sum of 16 bits, the other the address of the glyph. -/
theorem indexArithmetic : Obligations.IndexArithmetic := fun x s =>
  ⟨⟨(s.advance.setI (s.I + (s.readV x).setWidth 16)).endCycle, rfl, indexPlusByte_toNat s.I (s.readV x),
      onlyI_setI_endCycle s _⟩,
    ⟨(s.advance.setI (glyphAddress (s.readV x))).endCycle, rfl, glyphAddress_toNat (s.readV x),
      onlyI_setI_endCycle s _⟩⟩

/-! ## The ends of a transfer (R183 to R185) -/

theorem onlyMemoryAndI_withMem_setI_endCycle (s : State) (m : Memory) (i : Word) :
    OnlyMemoryAndI s ((s.advance.withMem m).setI i).endCycle :=
  ⟨fun _ => rfl, rfl, rfl, ⟨rfl, rfl⟩, rfl, rfl, rfl, rfl, rfl, rfl⟩

/-- The value FX55 and FX65 leave in `I` (D19). -/
theorem State.advanceI_toNat (s : State) (i : Word) (x : Nibble) :
    (s.advanceI i x).I.toNat = (i.toNat + x.toNat + 1) % 65536 := by
  have hx : (x.setWidth 16).toNat = x.toNat := BitVec.toNat_setWidth_of_le (by decide)
  rw [State.advanceI, State.setI_I, BitVec.toNat_add, BitVec.toNat_add, hx]
  exact Nat.mod_add_mod _ _ _

section
variable {x : Nibble} {s : State}

theorem exec_ldB_of_storeBytes {u : State}
    (h : s.advance.storeBytes s.I.toNat (decimalDigits (s.readV x)) = .ok u) :
    exec (.ldB x) s = .next u.endCycle := by
  change execLdB x s = _
  exact runCycleOrHalt_ok h

theorem exec_storeRegs_of_storeBytes {u : State}
    (h : s.advance.storeBytes s.I.toNat (s.advance.firstRegs (x.toNat + 1)) = .ok u) :
    exec (.storeRegs x) s = .next (u.advanceI s.I x).endCycle := by
  change execStoreRegs x s = _
  exact runCycleOrHalt_ok (by simp only [State.advance_I, h])

theorem exec_loadRegs_of_loadFirstRegs {u : State}
    (h : s.advance.loadFirstRegs s.I.toNat (x.toNat + 1) = .ok u) :
    exec (.loadRegs x) s = .next (u.advanceI s.I x).endCycle := by
  change execLoadRegs x s = _
  exact runCycleOrHalt_ok (by simp only [State.advance_I, h])

end

/-! ## Block stores by the addresses they resolve to (R54, R56) -/

/-- `storeBytes_ok` with each byte named by the address that `a + k` resolves to. -/
theorem State.storeBytes_resolved (s : State) (a : Nat) (l : List Byte)
    (h : s.params.addrPolicy = .mask ∨ a + l.length ≤ 4096) (hl : l.length ≤ 4096) :
    ∃ m, s.storeBytes a l = .ok (s.withMem m) ∧
      (∀ k (hk : k < l.length) b, resolve s.params (a + k) = .ok b → (s.withMem m).peek b = l[k]) ∧
      ∀ b, (∀ k, k < l.length → resolve s.params (a + k) ≠ .ok b) → (s.withMem m).peek b = s.peek b := by
  obtain ⟨m, hm, hstored, hframe⟩ := State.storeBytes_ok l s a h hl
  refine ⟨m, hm, fun k hk b hb => ?_, fun b hb => hframe b fun k hk hbk => ?_⟩
  · rw [(resolve_ok_iff.1 hb).2, hstored k hk]
  · have hres : s.params.addrPolicy = .mask ∨ a + k ≤ 4095 := h.imp_right fun _ => by omega
    exact hb k hk (resolve_ok_iff.2 ⟨hres, hbk⟩)

/-! ## The bytes stored (R183, R184) -/

@[simp] theorem decimalDigits_length (v : Byte) : (decimalDigits v).length = 3 := rfl

/-- A byte has at most three decimal digits, and each fits its byte. -/
theorem decimalDigits_toNat (v : Byte) :
    (decimalDigits v)[0].toNat = v.toNat / 100 ∧ (decimalDigits v)[1].toNat = v.toNat / 10 % 10 ∧
      (decimalDigits v)[2].toNat = v.toNat % 10 := by
  have hv := v.isLt
  exact ⟨Nat.mod_eq_of_lt (by omega), Nat.mod_eq_of_lt (by omega), Nat.mod_eq_of_lt (by omega)⟩

theorem State.firstRegs_getElem (s : State) {n : Nat} (k : Nibble) (hk : k.toNat < (s.firstRegs n).length) :
    (s.firstRegs n)[k.toNat] = s.readV k := by
  simp [State.firstRegs]

/-! ## The transfers -/

/-- Settles O49: the cycle stores the three digits of V[x] from `I` and leaves `I` alone. -/
theorem storeDecimal : Obligations.StoreDecimal := by
  intro x s h
  obtain ⟨m, hm, hstored, hframe⟩ := s.advance.storeBytes_resolved s.I.toNat (decimalDigits (s.readV x))
    (h.imp_right Nat.succ_le_succ) (by simp)
  obtain ⟨hhundreds, htens, hones⟩ := decimalDigits_toNat (s.readV x)
  refine ⟨_, exec_ldB_of_storeBytes hm, fun a ha => ?_, fun a ha => ?_, fun a ha => ?_,
    fun a ha => hframe a fun k hk => ha k (Nat.le_of_lt_succ hk), rfl,
    onlyMemoryAndI_withMem_setI_endCycle s m s.I⟩
  · exact (congrArg BitVec.toNat (hstored 0 _ a ha)).trans hhundreds
  · exact (congrArg BitVec.toNat (hstored 1 _ a ha)).trans htens
  · exact (congrArg BitVec.toNat (hstored 2 _ a ha)).trans hones

/-- Settles O50: the cycle stores the first x + 1 registers from `I` and advances `I` past them. -/
theorem storeRegisters : Obligations.StoreRegisters := by
  intro x s h
  have hx := x.isLt
  have hlen := s.advance.firstRegs_length (x.toNat + 1)
  obtain ⟨m, hm, hstored, hframe⟩ := s.advance.storeBytes_resolved s.I.toNat (s.advance.firstRegs (x.toNat + 1))
    (h.imp_right fun _ => by omega) (by omega)
  refine ⟨_, exec_storeRegs_of_storeBytes hm, fun k a hk ha => ?_, fun a ha => ?_,
    (s.advance.withMem m).advanceI_toNat s.I x, onlyMemoryAndI_withMem_setI_endCycle s m _⟩
  · exact (hstored k.toNat (by omega) a ha).trans (s.advance.firstRegs_getElem k _)
  · exact hframe a fun k hk => ha k (by omega)

/-- Settles O51: the cycle loads the first x + 1 registers from `I` and advances `I` past them; beside `I` it has the
frame of a cycle that writes only registers. -/
theorem loadRegisters : Obligations.LoadRegisters := by
  intro x s h
  have hx := x.isLt
  obtain ⟨v, hv, hreg⟩ := s.advance.loadFirstRegs_ok s.I.toNat (x.toNat + 1) (by omega)
    (h.imp_right Nat.succ_le_succ)
  refine ⟨_, exec_loadRegs_of_loadFirstRegs hv, fun k a hk ha => ?_, fun k hk => ?_,
    (s.advance.withV v).advanceI_toNat s.I x, (onlyRegisters_withV s v).2⟩
  · rw [(resolve_ok_iff.1 ha).2]
    exact (hreg k).trans (if_pos (Nat.lt_succ_of_le hk))
  · exact (hreg k).trans (if_neg (Nat.not_lt.2 hk))

end Sys2Proof.Machine
end

section
/-! PROOFS. Keys and timers (spec/45_keys_timers.md): which key counts as pressed and which is first, the ends of a
cycle that writes a timer, and what the host reads between cycles. -/

namespace Sys2Proof.Machine

open Sys2Proof.Claims

/-! ## Key skips (R200 to R202) -/

/-- Bit k of the pressed-key set as a number; an id above 15 is never pressed (R200). -/
theorem pressed_iff (keys : Keys) (k : Nat) : pressed keys k = true ↔ k ≤ 15 ∧ keys.toNat / 2 ^ k % 2 = 1 := by
  simp only [pressed, BitVec.getLsbD, Nat.testBit_eq_decide_div_mod_eq, Bool.and_eq_true, decide_eq_true_eq]

theorem skipTarget_pressed_toNat (keys : Keys) (k : Nat) (a0 : Word) :
    (skipTarget (pressed keys k) a0).toNat =
      (advancedPc a0).toNat + if k ≤ 15 ∧ keys.toNat / 2 ^ k % 2 = 1 then 2 else 0 := by
  simp only [skipTarget_toNat, pressed_iff]

theorem skipTarget_not_pressed_toNat (keys : Keys) (k : Nat) (a0 : Word) :
    (skipTarget (!pressed keys k) a0).toNat =
      (advancedPc a0).toNat + if k ≤ 15 ∧ keys.toNat / 2 ^ k % 2 = 1 then 0 else 2 := by
  simp only [skipTarget_toNat, Bool.not_eq_true', ← Bool.not_eq_true, pressed_iff, ite_not]

/-- Settles O46: each cycle writes the target of the skip to `pc` alone, and the key tested is `State.keyId`. -/
theorem keySkips : Obligations.KeySkips := fun x s =>
  ⟨⟨_, exec_skp x s, onlyPc_setPc_endCycle s _, skipTarget_pressed_toNat s.input.keys (s.keyId x) s.pc⟩,
    ⟨_, exec_sknp x s, onlyPc_setPc_endCycle s _, skipTarget_not_pressed_toNat s.input.keys (s.keyId x) s.pc⟩⟩

/-! ## The wait for a key (R204, R234) -/

theorem firstKey_eq_none_iff {keys : Keys} : firstKey keys = none ↔ keys = 0#16 := (firstKeyBy_spec _ keys).1

theorem exists_firstKey_of_ne_zero {keys : Keys} (h : keys ≠ 0#16) :
    ∃ k, firstKey keys = some k ∧ keys.getLsbD k.toNat = true := by
  obtain ⟨k, hk⟩ := Option.ne_none_iff_exists'.1 (mt firstKey_eq_none_iff.1 h)
  exact ⟨k, hk, (firstKeyBy_spec _ keys).2 k hk⟩

/-- Settles O55: with no key the cycle leaves `pc` where it was, for the retry of D8; with one it writes the first key,
4 bits that fit the register, to V[x]. -/
theorem waitForKey : Obligations.WaitForKey := by
  refine fun x s => ⟨fun h => ?_, fun h => ?_⟩
  · exact ⟨_, exec_ldVxK_none (firstKey_eq_none_iff.2 h), rfl, onlyPc_setPc_endCycle s s.pc⟩
  · obtain ⟨k, hk, hpressed⟩ := exists_firstKey_of_ne_zero h
    have hx : ((s.written x (k.setWidth 8)).readV x).toNat = k.toNat := by
      rw [State.written_readV_self, BitVec.toNat_setWidth_of_le (by decide)]
    refine ⟨s.written x (k.setWidth 8), exec_ldVxK_some hk, rfl, s.onlyRegisters_written x _,
      fun _ => s.written_readV_of_ne x _, ?_, ?_⟩
    · rw [hx]
      exact Nat.le_of_lt_succ k.isLt
    · rw [hx]
      exact hpressed

/-! ## The timer transfers (R203, R205, R206) -/

/-- Settles O53: the row by the lemma of its shape, and the cycle writes DT, which decays only at its end, to V[x]. -/
theorem readDelayTimer : Obligations.ReadDelayTimer :=
  ⟨rowDecodes_X (fun _ => rfl) rfl, fun x s =>
    ⟨s.written x s.DT, rfl, s.written_readV x s.DT, s.onlyRegisters_written x s.DT⟩⟩

/-- The two values of `TIMER_DECAY` differ only on a timer that is 0 (R97). -/
theorem decayed_toNat_of_pos (d : TimerDecay) {v : Byte} (h : 0 < v.toNat) : (decayed d v).toNat = v.toNat - 1 := by
  have hv := v.isLt
  obtain ⟨hsaturate, hwrap⟩ := decayed_toNat v
  cases d with
  | saturate => exact hsaturate
  | wrap => omega

theorem decayed_eq_zero {d : TimerDecay} {v : Byte} (hv : v = 0#8) (hd : d = .saturate) : decayed d v = 0#8 := by
  subst hv hd
  rfl

/-- The frame of an instruction that writes only timers. -/
def OnlyTimers (s t : State) : Prop :=
  SameRegisters s t ∧ t.I = s.I ∧ t.stack = s.stack ∧ t.fb = s.fb ∧ SameMemory s t ∧ Completed s t

theorem onlyTimers_setDT_setST_endCycle (s : State) (d e : Byte) :
    OnlyTimers s ((s.advance.setDT d).setST e).endCycle :=
  ⟨fun _ => rfl, rfl, rfl, rfl, fun _ => rfl, rfl, rfl, rfl, rfl, rfl, rfl⟩

/-- Settles O54: the rows by the lemma of their shape; each cycle writes V[x] to the one timer and leaves the other
alone before both decay. -/
theorem setTimers : Obligations.SetTimers :=
  ⟨rowDecodes_X (fun _ => rfl) rfl, rowDecodes_X (fun _ => rfl) rfl, fun x s =>
    ⟨⟨(s.advance.setDT (s.readV x)).endCycle, rfl, decayed_toNat_of_pos s.params.timerDecay, decayed_eq_zero, rfl,
        onlyTimers_setDT_setST_endCycle s (s.readV x) s.ST⟩,
      ⟨(s.advance.setST (s.readV x)).endCycle, rfl, decayed_toNat_of_pos s.params.timerDecay, decayed_eq_zero, rfl,
        onlyTimers_setDT_setST_endCycle s s.DT (s.readV x)⟩⟩⟩

/-! ## The outputs between cycles (R207, R233) -/

theorem State.soundRequest_iff (s : State) : s.soundRequest = true ↔ 0 < s.ST.toNat := by
  rw [State.soundRequest, bne_iff_ne, Nat.pos_iff_ne_zero]
  exact BitVec.toNat_ne_iff_ne.symm

/-- Settles O57: the request is the test of ST against 0, and the other outputs are fields of the state. -/
theorem outputsBetweenCycles : Obligations.OutputsBetweenCycles := fun s =>
  ⟨s.soundRequest_iff, fun _ _ _ _ => rfl, rfl, rfl, rfl, rfl⟩

end Sys2Proof.Machine
end

section
/-! PROOFS. Exceptions and inputs (spec/60_exceptions.md): which instructions read an input of the cycle and which may
halt, the end of a cycle of the others, the causes of a halt, and `FIRST_KEY`. -/

namespace Sys2Proof.Machine

open Sys2Proof.Claims

/-! ## The inputs an instruction reads (R233) -/

/-- The instructions that read the pressed keys (D17). -/
def readsKeys (i : Instr) : Prop := ∃ x, i = .skp x ∨ i = .sknp x ∨ i = .ldVxK x

/-- The instruction that reads the random byte (D16). -/
def readsRand (i : Instr) : Prop := ∃ x nn, i = .rnd x nn

/-- The coming cycle of `t` has the inputs of that of `s`, as far as the instruction reads them. -/
def SameInputsRead (i : Instr) (s t : State) : Prop :=
  (readsKeys i → t.input.keys = s.input.keys) ∧ (readsRand i → t.input.rand = s.input.rand)

/-! ## The instructions that may halt (R228) -/

/-- The instructions that access memory at `I` and beyond. -/
def accessesMem (i : Instr) : Prop :=
  (∃ x y n, i = .drw x y n) ∨ ∃ x, i = .ldB x ∨ i = .storeRegs x ∨ i = .loadRegs x

/-- The instructions whose cycle may end in a halt. -/
def mayHalt (i : Instr) : Prop := i = .ret ∨ (∃ nnn, i = .call nnn) ∨ accessesMem i

/-- The cycle of `i` from `s` raises no halt and ends in `u.endCycle`, and where the inputs listed are replaced by
ones that `i` cannot tell from them it ends so too, but for the inputs. -/
structure RunsToEnd (i : Instr) (s u : State) : Prop where
  ends : exec i s = .next u.endCycle
  halted : u.halted = s.halted
  withInputs_ends : ∀ l, SameInputsRead i s (withInputs s l) →
    exec i (withInputs s l) = .next (withInputs u l).endCycle

section
variable {s : State}

theorem exec_ldVxK_runsToEnd (x : Nibble) : ∃ u, RunsToEnd (.ldVxK x) s u := by
  have hreads : readsKeys (.ldVxK x) := ⟨x, .inr (.inr rfl)⟩
  cases hk : firstKey s.input.keys with
  | none => exact ⟨_, exec_ldVxK_none hk, rfl, fun _ hin => exec_ldVxK_none ((hin.1 hreads).symm ▸ hk)⟩
  | some k => exact ⟨_, exec_ldVxK_some hk, rfl, fun _ hin => exec_ldVxK_some ((hin.1 hreads).symm ▸ hk)⟩

/-- An instruction outside the list of R228 runs to the end of its cycle. -/
theorem exec_runsToEnd {i : Instr} (hi : ¬ mayHalt i) : ∃ u, RunsToEnd i s u := by
  cases i with
  | ret | call nnn | drw x y n | ldB x | storeRegs x | loadRegs x =>
    exact absurd (by simp [mayHalt, accessesMem]) hi
  | seImm x nn => exact ⟨_, exec_seImm x nn s, rfl, fun l _ => exec_seImm x nn (withInputs s l)⟩
  | sneImm x nn => exact ⟨_, exec_sneImm x nn s, rfl, fun l _ => exec_sneImm x nn (withInputs s l)⟩
  | seReg x y => exact ⟨_, exec_seReg x y s, rfl, fun l _ => exec_seReg x y (withInputs s l)⟩
  | sneReg x y => exact ⟨_, exec_sneReg x y s, rfl, fun l _ => exec_sneReg x y (withInputs s l)⟩
  | skp x =>
    refine ⟨_, exec_skp x s, rfl, fun l hin => ?_⟩
    rw [exec_skp, hin.1 ⟨x, .inl rfl⟩]
    rfl
  | sknp x =>
    refine ⟨_, exec_sknp x s, rfl, fun l hin => ?_⟩
    rw [exec_sknp, hin.1 ⟨x, .inr (.inl rfl)⟩]
    rfl
  | ldVxK x => exact exec_ldVxK_runsToEnd x
  | rnd x nn =>
    refine ⟨s.advance.writeV x (s.input.rand &&& nn), rfl, rfl, fun l hin => ?_⟩
    rw [← hin.2 ⟨x, nn, rfl⟩]
    rfl
  | cls | jp _ | jpV0 _ | ldI _ | ldImm _ _ | addImm _ _ | ldReg _ _ | orReg _ _ | andReg _ _ | xorReg _ _
  | addReg _ _ | subReg _ _ | shr _ _ | subnReg _ _ | shl _ _ | ldVxDT _ | ldDTVx _ | ldSTVx _ | addI _ | ldF _ =>
    exact ⟨_, rfl, rfl, fun _ _ => rfl⟩

end

/-! ## Memory transfers do not see the inputs -/

section
variable (s : State) (l : List CycleInput)

theorem State.memRead_withInputs (a : Nat) : (withInputs s l).memRead a = s.memRead a := rfl

theorem State.memWrite_withInputs (a : Nat) (v : Byte) :
    (withInputs s l).memWrite a v = (s.memWrite a v).map (withInputs · l) := by
  have hparams : (withInputs s l).params = s.params := rfl
  rw [State.memWrite, State.memWrite, hparams]
  cases resolve s.params a <;> rfl

theorem State.drawRows_withInputs (x0 y0 r : Nat) : (withInputs s l).drawRows x0 y0 r = s.drawRows x0 y0 r := by
  induction r with
  | zero => rfl
  | succ r ih => simp only [State.drawRows, ih]; rfl

theorem State.storeBytes_withInputs (bytes : List Byte) (a : Nat) :
    (withInputs s l).storeBytes a bytes = (s.storeBytes a bytes).map (withInputs · l) := by
  induction bytes generalizing s a with
  | nil => rfl
  | cons v rest ih =>
    rw [State.storeBytes, State.memWrite_withInputs, State.storeBytes]
    cases s.memWrite a v with
    | ok t => exact ih t (a + 1)
    | error k => rfl

theorem State.loadFirstRegs_withInputs (a n : Nat) :
    (withInputs s l).loadFirstRegs a n = (s.loadFirstRegs a n).map (withInputs · l) := by
  induction n with
  | zero => rfl
  | succ k ih =>
    rw [State.loadFirstRegs, ih, State.loadFirstRegs]
    cases s.loadFirstRegs a k with
    | error e => rfl
    | ok t =>
      simp only [Except.map, State.memRead_withInputs]
      cases t.memRead (a + k) <;> rfl

end

/-! ## Two cycles that differ in the inputs (R233) -/

section
variable {i : Instr} {s t : State}

/-- These instructions read no input: whatever is listed, the transfer resolves or halts alike and gives the same. -/
theorem exec_accessesMem_withInputs (hi : accessesMem i) (h : exec i s = .next t) (l : List CycleInput) :
    ∃ m, exec i (withInputs s l) = .next (withInputs t m) := by
  rcases hi with ⟨x, y, n, rfl⟩ | ⟨x, rfl | rfl | rfl⟩
  · rcases exec_drw_cases h with ⟨d, hd, rfl⟩ | ⟨⟨hf, hr⟩, rfl⟩
    · exact ⟨l.tail, exec_drw_of_drawRows_ok (s := withInputs s l) ((s.drawRows_withInputs l _ _ _).trans hd)⟩
    · exact ⟨l, exec_drw_halts (s := withInputs s l) hf hr⟩
  · rcases exec_ldB_cases h with ⟨m, hm, -, rfl⟩ | ⟨⟨hf, ha⟩, rfl⟩
    · have hm' := (s.advance.storeBytes_withInputs l _ _).trans (congrArg _ hm)
      exact ⟨l.tail, exec_ldB_of_storeBytes (s := withInputs s l) hm'⟩
    · exact ⟨l, exec_ldB_halts (s := withInputs s l) hf ha⟩
  · rcases exec_storeRegs_cases h with ⟨m, hm, -, rfl⟩ | ⟨⟨hf, ha⟩, rfl⟩
    · have hm' := (s.advance.storeBytes_withInputs l _ _).trans (congrArg _ hm)
      exact ⟨l.tail, exec_storeRegs_of_storeBytes (s := withInputs s l) hm'⟩
    · exact ⟨l, exec_storeRegs_halts (s := withInputs s l) hf ha⟩
  · rcases exec_loadRegs_cases h with ⟨v, hv, -, rfl⟩ | ⟨⟨hf, ha⟩, rfl⟩
    · have hv' := (s.advance.loadFirstRegs_withInputs l _ _).trans (congrArg _ hv)
      exact ⟨l.tail, exec_loadRegs_of_loadFirstRegs (s := withInputs s l) hv'⟩
    · exact ⟨l, exec_loadRegs_halts (s := withInputs s l) hf ha⟩

/-- Inputs that the instruction cannot tell apart give next states that differ in the inputs listed alone. -/
theorem exec_withInputs (h : exec i s = .next t) {l : List CycleInput} (hin : SameInputsRead i s (withInputs s l)) :
    ∃ m, exec i (withInputs s l) = .next (withInputs t m) := by
  by_cases hi : mayHalt i
  · rcases hi with rfl | ⟨nnn, rfl⟩ | hmem
    · rcases exec_ret_cases h with ⟨v, rest, hs, rfl⟩ | ⟨hs, rfl⟩
      · exact ⟨l.tail, exec_ret_of_stack_cons (s := withInputs s l) hs⟩
      · exact ⟨l, exec_ret_of_stack_nil (s := withInputs s l) hs⟩
    · rcases exec_call_cases h with ⟨hs, rfl⟩ | ⟨hs, rfl⟩
      · exact ⟨l.tail, exec_call_of_not_full (s := withInputs s l) hs⟩
      · exact ⟨l, exec_call_of_full (s := withInputs s l) hs⟩
    · exact exec_accessesMem_withInputs hmem h l
  · obtain ⟨u, hu⟩ := exec_runsToEnd (s := s) hi
    obtain rfl := Host.Outcome.next.inj (h.symm.trans hu.ends)
    exact ⟨l.tail, hu.withInputs_ends l hin⟩

end

/-- Settles O26: the second cycle is the first with other inputs listed, of which the instruction reads none that
differ. -/
theorem inputsReadOnlyWhereSaid : Obligations.InputsReadOnlyWhereSaid := by
  intro i s t t' c c' l h h' hkeys hrand
  have hin : SameInputsRead i (withInputs s (c :: l)) (withInputs s (c' :: l)) := by
    refine ⟨fun ⟨x, hi⟩ => ?_, fun ⟨x, nn, hi⟩ => (hrand.resolve_right fun hn => hn x nn hi).symm⟩
    refine (hkeys.resolve_right fun hn => ?_).symm
    obtain ⟨hskp, hsknp, hldVxK⟩ := hn x
    rcases hi with hi | hi | hi
    · exact hskp hi
    · exact hsknp hi
    · exact hldVxK hi
  obtain ⟨m, hm⟩ := exec_withInputs h hin
  obtain rfl := Host.Outcome.next.inj (hm.symm.trans h')
  rfl

/-! ## The causes of a halt (R228) -/

/-- The furthest access of these instructions is 15 bytes beyond `I`, so one above 4095 takes an `I` of 4081 or
more. -/
theorem accessesMem_halt {i : Instr} {s t : State} (hi : accessesMem i) (h : exec i s = .next t)
    (hs : s.halted = false) (ht : t.halted = true) :
    s.params.addrPolicy = .fault ∧ 4081 ≤ s.I.toNat ∧ t = halted s .outOfBoundsAddress (some (encode i)) := by
  rcases hi with ⟨x, y, n, rfl⟩ | ⟨x, rfl | rfl | rfl⟩
  · rcases exec_drw_cases h with ⟨d, -, rfl⟩ | ⟨⟨hf, r, ⟨hrn, -⟩, ha⟩, rfl⟩
    · cases hs.symm.trans ht
    · have hn := n.isLt
      exact ⟨hf, by omega, rfl⟩
  · rcases exec_ldB_cases h with ⟨m, -, -, rfl⟩ | ⟨⟨hf, ha⟩, rfl⟩
    · cases hs.symm.trans ht
    · exact ⟨hf, by omega, rfl⟩
  · rcases exec_storeRegs_cases h with ⟨m, -, -, rfl⟩ | ⟨⟨hf, ha⟩, rfl⟩
    · cases hs.symm.trans ht
    · have hx := x.isLt
      exact ⟨hf, by omega, rfl⟩
  · rcases exec_loadRegs_cases h with ⟨v, -, -, rfl⟩ | ⟨⟨hf, ha⟩, rfl⟩
    · cases hs.symm.trans ht
    · have hx := x.isLt
      exact ⟨hf, by omega, rfl⟩

/-- Settles O21: a cycle that runs to its end leaves the core as unhalted as it was, and each of the six instructions
that may halt does so by its one cause. -/
theorem haltCauses : Obligations.HaltCauses := by
  intro i s t h hs ht
  by_cases hi : mayHalt i
  · rcases hi with rfl | ⟨nnn, rfl⟩ | hmem
    · rcases exec_ret_cases h with ⟨v, rest, -, rfl⟩ | ⟨hempty, rfl⟩
      · cases hs.symm.trans ht
      · exact .inl ⟨rfl, hempty, rfl⟩
    · rcases exec_call_cases h with ⟨-, rfl⟩ | ⟨hfull, rfl⟩
      · cases hs.symm.trans ht
      · exact .inr (.inl ⟨⟨nnn, rfl⟩, hfull, rfl⟩)
    · exact .inr (.inr ⟨hmem, accessesMem_halt hmem h hs ht⟩)
  · obtain ⟨u, hu⟩ := exec_runsToEnd (s := s) hi
    obtain rfl := Host.Outcome.next.inj (h.symm.trans hu.ends)
    cases (hu.halted.trans hs).symm.trans ht

/-! ## The first key (R234) -/

theorem firstKeyBy_of_pick_pressed {pick : Keys → Nibble} {keys : Keys} (h : keys.getLsbD (pick keys).toNat = true) :
    firstKeyBy pick keys = some (pick keys) := by
  have hmem := mem_pressedKeys.2 h
  unfold firstKeyBy
  split
  next hnil => simp [hnil] at hmem
  next k hone =>
    rw [hone, List.mem_singleton] at hmem
    rw [hmem]
  next => rw [if_pos h]

/-- The choice that makes `FIRST_KEY` the function `f`; where `f` is none no key is pressed, and the choice is not
consulted. -/
def pickOf (f : Keys → Option Nibble) (keys : Keys) : Nibble := (f keys).getD 0#4

theorem firstKeyBy_pickOf {f : Keys → Option Nibble} (hf : Admissible f) (keys : Keys) :
    firstKeyBy (pickOf f) keys = f keys := by
  obtain ⟨hnone, hpressed⟩ := hf keys
  cases hk : f keys with
  | none => exact (firstKeyBy_spec _ keys).1.2 (hnone.1 hk)
  | some k =>
    have hpick : pickOf f keys = k := by rw [pickOf, hk, Option.getD_some]
    rw [firstKeyBy_of_pick_pressed (by rw [hpick]; exact hpressed k hk), hpick]

/-- Settles O56: the model's function is admissible whatever its choice, and an admissible function is itself a
choice. -/
theorem firstKeyIsAnyAdmissible : Obligations.FirstKeyIsAnyAdmissible :=
  ⟨firstKeyBy_spec Config.firstKeyPick, fun f hf => ⟨pickOf f, firstKeyBy_pickOf hf⟩⟩

end Sys2Proof.Machine
end

section
/-! PROOFS. Reset and load (spec/70_reset_and_hazards.md): the bytes an image leaves in memory, the launch of the core,
and what a load answers (R252). -/

namespace Sys2Proof.Machine

/-! ## The bytes of an image -/

theorem State.pokeBytes_eq_withMem (s : State) (a : Nat) (l : List Byte) :
    s.pokeBytes a l = s.withMem (s.pokeBytes a l).mem := by
  induction l generalizing s a with
  | nil => rfl
  | cons v rest ih => exact ih (s.poke a v) (a + 1)

theorem State.peek_pokeBytes_outside (s : State) {a b : Nat} {l : List Byte} (h : b < a ∨ a + l.length ≤ b) :
    (s.pokeBytes a l).peek b = s.peek b := by
  induction l generalizing s a with
  | nil => rfl
  | cons v rest ih =>
    rw [List.length_cons] at h
    have hne : b ≠ a := by omega
    calc ((s.poke a v).pokeBytes (a + 1) rest).peek b
      _ = (s.poke a v).peek b := ih (s.poke a v) (by omega)
      _ = s.peek b := by rw [State.peek_poke, if_neg hne]

theorem State.peek_pokeBytes_inside (s : State) (a : Nat) (l : List Byte) {k : Nat} (hk : k < l.length) :
    (s.pokeBytes a l).peek (a + k) = l[k] := by
  induction l generalizing s a k with
  | nil => exact absurd hk (Nat.not_lt_zero k)
  | cons v rest ih =>
    cases k with
    | zero =>
      calc ((s.poke a v).pokeBytes (a + 1) rest).peek a
        _ = (s.poke a v).peek a := (s.poke a v).peek_pokeBytes_outside (.inl a.lt_succ_self)
        _ = v := by rw [State.peek_poke, if_pos rfl]
    | succ k =>
      have hrest := ih (s.poke a v) (a + 1) (Nat.lt_of_succ_lt_succ hk)
      rwa [Nat.succ_add_eq_add_succ] at hrest

theorem State.Inv.poke {s : State} (hs : s.Inv) {a : Nat} (ha : a < memSize) (v : Byte) : (s.poke a v).Inv := by
  obtain ⟨hmem, hrest⟩ := hs
  exact ⟨Memory.wf_write v hmem ha, hrest⟩

theorem State.Inv.pokeBytes {s : State} (hs : s.Inv) {a : Nat} {l : List Byte} (h : a + l.length ≤ memSize) :
    (s.pokeBytes a l).Inv := by
  induction l generalizing s a with
  | nil => exact hs
  | cons v rest ih =>
    rw [List.length_cons] at h
    exact ih (hs.poke (by omega) v) (by omega)

/-! ## The launch -/

/-- The core waiting at the entry point, ready for cycles: the last step of a load (R252, R253). -/
def State.launched (s : State) : State := { s with pc := 0x200#16, loaded := true }

theorem State.Inv.launched {s : State} (hs : s.Inv) : s.launched.Inv := by
  obtain ⟨hmem, hfits, haddr, -, hrec, -⟩ := hs
  have hpc : (0x200#16 : Word).toNat ≤ 0x10FE := by decide
  exact ⟨hmem, hfits, haddr, hpc, hrec, fun _ => rfl⟩

/-! ## What a load answers (R226, R252) -/

section
variable {s t : State} {image : List Byte}

theorem State.load_of_fits (h : image.length ≤ maxImage) :
    s.load image = .ok (s.pokeBytes loadBase image).launched := if_neg (Nat.not_lt.2 h)

theorem State.load_of_too_long (h : maxImage < image.length) : s.load image = .error .programTooLarge := if_pos h

theorem State.load_eq_ok_iff :
    s.load image = .ok t ↔ image.length ≤ maxImage ∧ t = (s.pokeBytes loadBase image).launched := by
  by_cases h : image.length ≤ maxImage
  · rw [load_of_fits h, Except.ok.injEq, eq_comm, and_iff_right h]
  · rw [load_of_too_long (Nat.lt_of_not_le h)]
    exact iff_of_false nofun fun ⟨hfits, _⟩ => h hfits

theorem loadBase_add_length_le (h : image.length ≤ maxImage) : loadBase + image.length ≤ memSize :=
  Nat.add_le_add_left h loadBase

end

/-- Settles O19: the image fits below 4096, so each byte of it keeps memory canonical, and the launch keeps the
rest. -/
theorem loadKeepsInvariant : Obligations.LoadKeepsInvariant := by
  intro s t image hs h
  obtain ⟨hfits, rfl⟩ := State.load_eq_ok_iff.1 h
  exact (hs.pokeBytes (loadBase_add_length_le hfits)).launched

/-- Settles O59, by the length test of a load: an image that fits leaves its bytes at 0x200 and launches the core. -/
theorem loadPlacesImage : Obligations.LoadPlacesImage := by
  refine fun s image => ⟨fun hfits => ?_, State.load_of_too_long⟩
  refine ⟨_, State.load_of_fits hfits, rfl, rfl, fun k hk => ?_, fun a ha => ?_, ?_⟩
  · exact s.peek_pokeBytes_inside loadBase image hk
  · exact s.peek_pokeBytes_outside ha
  · exact congrArg State.launched (s.pokeBytes_eq_withMem loadBase image)

end Sys2Proof.Machine
end

section
/-! PROOFS. The halt, the fetch above 4095 and the phases of a cycle (spec/40_cycle.md): a halt discards its cycle and
stays, no cycle runs before a load, and the values of the advance and of the decay. -/

namespace Sys2Proof.Machine

open Sys2Proof.Claims

/-! ## A halt discards its cycle (R99, R222) -/

section
variable {i : Instr} {s t : State}

/-- The effect of an instruction has no right to write `halted`, so a cycle that halts has taken the halt. -/
theorem exec_takes_halt (h : exec i s = .next t) (hs : s.halted = false) (ht : t.halted = true) :
    ∃ k, t = s.takeHalt k (some (encode i)) := by
  rcases exec_cases h with hk | ⟨u, hu, rfl⟩
  · exact hk
  · cases (hu.halted.trans hs).symm.trans ht

end

/-- Settles O20, by the cases of a step: only a fetch that raises or the instruction fetched can halt, and the word of
that instruction is the word fetched. -/
theorem haltIsPrecise : Obligations.HaltIsPrecise := by
  intro s t h hs ht
  rcases step_cases h with ⟨hhalted, -⟩ | ⟨-, -, ⟨k, hw, rfl⟩ | ⟨w, hw, ⟨-, rfl⟩ | ⟨i, hd, hi⟩⟩⟩
  · cases hs.symm.trans hhalted
  · exact ⟨k, .inl ⟨rfl, hw⟩⟩
  · cases hs.symm.trans ht
  · obtain ⟨k, rfl⟩ := exec_takes_halt hi hs ht
    rw [encode_of_decodeWord hd]
    exact ⟨k, .inr ⟨w, rfl, hw⟩⟩

/-! ## A halted core stays as it is (R98) -/

/-- A run whose first step answers a next state goes on from that state. -/
theorem run_succ_of_step_next {M : Host.Core} {s t : M.State} (k : Nat) (h : M.step s = .next t) :
    M.run (k + 1) s = M.run k t := by
  simp only [Host.Core.run, h]

/-- Settles O8, by induction on the number of cycles. -/
theorem haltIsSticky : Obligations.HaltIsSticky := by
  intro k s hh
  induction k with
  | zero => rfl
  | succ k ih => exact (run_succ_of_step_next k (step_of_halted hh)).trans ih

/-! ## Before a load (R251) -/

theorem step_of_not_loaded {s : State} (hh : s.halted = false) (hl : s.loaded = false) :
    step s = .refused .cycleBeforeLoad := by
  simp [step, cycle, hh, hl]

/-- Settles O9: the case of the cycle of a core that is neither halted nor loaded. -/
theorem cycleBeforeLoadIsRefused : Obligations.CycleBeforeLoadIsRefused := fun _ => step_of_not_loaded

/-! ## The fetch above 4095 (R54, R91, R225) -/

/-- Where neither address of the fetch is above 4095, no resolution is needed. -/
theorem State.fetchWord_of_pc_le (s : State) (hp : s.pc.toNat ≤ 4094) :
    s.fetchWord = .ok (wordOfBytes (s.peek s.pc.toNat) (s.peek (s.pc.toNat + 1))) := by
  have hlo : s.pc.toNat + 1 < 4096 := by omega
  rw [s.fetchWord_ok (.inr hp), Nat.mod_eq_of_lt (Nat.lt_of_succ_lt hlo), Nat.mod_eq_of_lt hlo]

/-- Settles O11: under MASK both bytes resolve, under FAULT they do up to 4094, and above that the fetch raises and
the step takes the halt. -/
theorem fetchAboveMemory : Obligations.FetchAboveMemory := fun s =>
  ⟨fun hm => s.fetchWord_ok (.inl hm), fun _ hp => s.fetchWord_of_pc_le hp,
    fun hf hp hh hl => step_of_fetchWord_error hh hl (s.fetchWord_error hf hp)⟩

/-! ## The advance and the decay as numbers (R92, R93, R97) -/

/-- Settles O13, by the value of the advance. -/
theorem advanceWrapsToZero : Obligations.AdvanceWrapsToZero := advancedPc_toNat

/-- Settles O16, by the value of the decay. -/
theorem decaySaturatesOrWraps : Obligations.DecaySaturatesOrWraps := decayed_toNat

end Sys2Proof.Machine
end
